-- ==== Sys2Proof/Word.lean ====
section
/-! DEFINITION. The two widths of the block: 16-bit words (00_scope.md R6, CMD_WIDTH, RSP_WIDTH, CRC_WIDTH) and bytes. -/

namespace Sys2Proof

/-- A 16-bit value: a command word, the CRC, a Modbus register, the response register (R6, R12). -/
abbrev Word := BitVec 16

/-- An 8-bit value: OP, IMM8, a BUF cell, LEN (R12, R52). -/
abbrev Byte := BitVec 8

end Sys2Proof
end

