-- ==== Sys2Proof/Syntax.lean ====
section
/-! DEFINITION. The commands, one constructor per row of the opcode map (30_encoding.md R54), the three formats
(R53), and what decoding a word gives (R58). -/

namespace Sys2Proof

/-- A legal command with its operand (R54, R55). -/
inductive Instr where
  /-- NOP, OP 0x00, format Z (R85). -/
  | nop
  /-- CRC_INIT, OP 0x01, format Z (R64). -/
  | crcInit
  /-- CRC_BYTE b, OP 0x02, format B (R65). -/
  | crcByte (b : Byte)
  /-- CRC_READ, OP 0x03, format Z (R67). -/
  | crcRead
  /-- UNP_CLEAR, OP 0x10, format Z (R73). -/
  | unpClear
  /-- UNP_PUSH b, OP 0x11, format B (R75). -/
  | unpPush (b : Byte)
  /-- UNP_DECODE, OP 0x12, format Z (R78). -/
  | unpDecode
  /-- UNP_READ i, OP 0x13, format I: a 2-bit index into VAL (R55, R82). -/
  | unpRead (i : BitVec 2)
  /-- STAT_READ, OP 0x20, format Z (R87). -/
  | statRead
  /-- ERR_CLEAR, OP 0x21, format Z (R88). -/
  | errClear
deriving DecidableEq, Repr

/-- The three command formats, distinguished only by what IMM8 means (R53). -/
inductive Format where
  /-- IMM8 is unused and must be 0. -/
  | z
  /-- IMM8 is a data byte. -/
  | b
  /-- IMM8 is an index into the value file, 0 to 3. -/
  | i
deriving DecidableEq, Repr

/-- Why a word is illegal (R56, R57, R91). -/
inductive IllegalCause where
  /-- OP is not in the opcode map (R56). -/
  | undefinedOpcode
  /-- OP is defined and IMM8 is outside its format's set (R57). -/
  | badOperand
deriving DecidableEq, Repr

/-- The result of decoding one word: `Cmd(m, imm)` or `Illegal(cause)` (R58). -/
inductive Decoded where
  | cmd (i : Instr)
  | illegal (cause : IllegalCause)
deriving DecidableEq, Repr

end Sys2Proof
end

