-- ==== Sys2Proof/WellFormed.lean ====
section
/-! DEFINITION. When a command word's two fields are a legal command (30_encoding.md R53 to R57). `Instr` is
well-formed by its types (a byte, a 2-bit index), so the checks are on the fields OP and IMM8 a host may present. -/

namespace Sys2Proof

/-- The format of each defined OP; `none` is an undefined opcode (R54, R56). -/
def opFormat (op : Byte) : Option Format :=
  if op ∈ [0x00#8, 0x01#8, 0x03#8, 0x10#8, 0x12#8, 0x20#8, 0x21#8] then some .z
  else if op ∈ [0x02#8, 0x11#8] then some .b
  else if op = 0x13#8 then some .i
  else none

/-- The legal IMM8 values of each format (R53). -/
def Format.admits : Format → Byte → Bool
  | .z, imm => imm == 0x00#8
  | .b, _ => true
  | .i, imm => imm ≤ 0x03#8

/-- The fields of a legal command: a defined OP, and an IMM8 its format admits (R56, R57). -/
def wellFormedFields (op imm : Byte) : Bool :=
  match opFormat op with
  | none => false
  | some f => f.admits imm

/-- The OP and IMM8 fields a command is written with (R54, R55). -/
def Instr.fields : Instr → Byte × Byte
  | .nop => (0x00#8, 0x00#8)
  | .crcInit => (0x01#8, 0x00#8)
  | .crcByte b => (0x02#8, b)
  | .crcRead => (0x03#8, 0x00#8)
  | .unpClear => (0x10#8, 0x00#8)
  | .unpPush b => (0x11#8, b)
  | .unpDecode => (0x12#8, 0x00#8)
  | .unpRead i => (0x13#8, i.setWidth 8)
  | .statRead => (0x20#8, 0x00#8)
  | .errClear => (0x21#8, 0x00#8)

/-- A command is well-formed when its fields are. -/
def Instr.wellFormed (i : Instr) : Bool := wellFormedFields i.fields.1 i.fields.2

end Sys2Proof
end

