-- ==== Sys2Proof/Decode.lean ====
section
/-! DEFINITION. The decoder, total on all 65536 words (30_encoding.md R58), the opcode map as rows (R54), and the
encoder (R54, R55). -/

namespace Sys2Proof

/-- OP = cmd[15:8] (R52). -/
def opField (w : Word) : Byte := w.extractLsb' 8 8

/-- IMM8 = cmd[7:0] (R52). -/
def immField (w : Word) : Byte := w.extractLsb' 0 8

/-- Format Z: no operand, and IMM8 must be 0 (R53, R57, R58). -/
def decodeZ (imm : Byte) (i : Instr) : Decoded :=
  if imm = 0x00#8 then .cmd i else .illegal .badOperand

/-- Format I: the index is IMM8[1:0], and IMM8[7:2] must be 0 (R55, R57, R58). -/
def decodeI (imm : Byte) (mk : BitVec 2 → Instr) : Decoded :=
  if imm.extractLsb' 2 6 = 0#6 then .cmd (mk (imm.extractLsb' 0 2)) else .illegal .badOperand

/-- The decoding function: OP is checked before IMM8 (R58). -/
def decode (w : Word) : Decoded :=
  let imm := immField w
  if opField w = 0x00#8 then decodeZ imm .nop
  else if opField w = 0x01#8 then decodeZ imm .crcInit
  else if opField w = 0x02#8 then .cmd (.crcByte imm)
  else if opField w = 0x03#8 then decodeZ imm .crcRead
  else if opField w = 0x10#8 then decodeZ imm .unpClear
  else if opField w = 0x11#8 then .cmd (.unpPush imm)
  else if opField w = 0x12#8 then decodeZ imm .unpDecode
  else if opField w = 0x13#8 then decodeI imm .unpRead
  else if opField w = 0x20#8 then decodeZ imm .statRead
  else if opField w = 0x21#8 then decodeZ imm .errClear
  else .illegal .undefinedOpcode

/-- One row of the opcode map: a word selects it when `cmd & mask == pattern` (R54). -/
structure OpcodeRow where
  mnemonic : String
  pattern  : Word
  mask     : Word
deriving DecidableEq, Repr

/-- A word selects a row (R54). -/
def OpcodeRow.selects (r : OpcodeRow) (w : Word) : Bool := w &&& r.mask == r.pattern

/-- The opcode map, row by row as the spec prints it (R54). -/
def opcodeRows : List OpcodeRow :=
  [⟨"NOP",        0x0000#16, 0xFFFF#16⟩,
   ⟨"CRC_INIT",   0x0100#16, 0xFFFF#16⟩,
   ⟨"CRC_BYTE",   0x0200#16, 0xFF00#16⟩,
   ⟨"CRC_READ",   0x0300#16, 0xFFFF#16⟩,
   ⟨"UNP_CLEAR",  0x1000#16, 0xFFFF#16⟩,
   ⟨"UNP_PUSH",   0x1100#16, 0xFF00#16⟩,
   ⟨"UNP_DECODE", 0x1200#16, 0xFFFF#16⟩,
   ⟨"UNP_READ",   0x1300#16, 0xFFFC#16⟩,
   ⟨"STAT_READ",  0x2000#16, 0xFFFF#16⟩,
   ⟨"ERR_CLEAR",  0x2100#16, 0xFFFF#16⟩]

/-- The mnemonic of a command (R54). -/
def Instr.mnemonic : Instr → String
  | .nop => "NOP"
  | .crcInit => "CRC_INIT"
  | .crcByte _ => "CRC_BYTE"
  | .crcRead => "CRC_READ"
  | .unpClear => "UNP_CLEAR"
  | .unpPush _ => "UNP_PUSH"
  | .unpDecode => "UNP_DECODE"
  | .unpRead _ => "UNP_READ"
  | .statRead => "STAT_READ"
  | .errClear => "ERR_CLEAR"

/-- The word of a command: OP in bits 15:8, IMM8 in bits 7:0 (R52, R54, R55). -/
def encode : Instr → Word
  | .nop => 0x0000#16
  | .crcInit => 0x0100#16
  | .crcByte b => 0x02#8 ++ b
  | .crcRead => 0x0300#16
  | .unpClear => 0x1000#16
  | .unpPush b => 0x11#8 ++ b
  | .unpDecode => 0x1200#16
  | .unpRead i => 0x13#8 ++ (0b000000#6 ++ i)
  | .statRead => 0x2000#16
  | .errClear => 0x2100#16

/-- The one 16-bit word of an opcode-table row's bits, the bits above `nbits` zero. The word is presented in
parallel, so it has no byte order (20_memory.md R41). -/
def tableWord (nbits w : Nat) : Word := BitVec.ofNat 16 (w % 2 ^ nbits)

/-- The command the decoder reads from an opcode-table row's bits; `none` where the word is illegal. -/
def decodeTableWord (nbits w : Nat) : Option Instr :=
  match decode (tableWord nbits w) with
  | .cmd i => some i
  | .illegal _ => none

end Sys2Proof
end

