-- ==== Sys2Proof/Config.lean ====
section
/-! DEFINITION. The block's parameters (00_scope.md R6). They are wired constants, not state (10_state.md R30);
the one parameter the spec leaves open, the clock frequency, has no body. -/

namespace Sys2Proof.Config

/-- CRC_POLY, the reflected polynomial (R6, R63). -/
def crcPoly : Word := 0xA001#16

/-- CRC_INIT_VALUE (R6, R64). -/
def crcInit : Word := 0xFFFF#16

/-- EXP_ADDR, the slave address a response must echo (R6, R71). -/
def expAddr : Byte := 0x01#8

/-- EXP_FUNC, the function code a response must echo (R6, R71). -/
def expFunc : Byte := 0x03#8

/-- EXP_BYTECOUNT, the byte count a response must carry (R6, R71). -/
def expByteCount : Byte := 0x08#8

/-- MIN_LEN, the least length of a response in bytes (R6, R71). -/
def minLen : Nat := 11

/-- BUF_DEPTH, the number of BUF cells (R6, R32). -/
def bufDepth : Nat := 11

/-- The greatest value of LEN, where it saturates (R6 LEN_WIDTH, R37). -/
def lenMax : Byte := 255#8

/-- CLK_FREQ in hertz: open, and no rule depends on it (70_reset_and_hazards.md R117, 93_implementation_defined.md A;
log 9). -/
opaque clkFreqHz : Nat

end Sys2Proof.Config
end

