-- ==== Sys2Proof/Machine/State.lean ====
section
/-! DEFINITION. The block's state (10_state.md R12), the reasons a step can stop, and the state after reset (R28). -/

namespace Sys2Proof.Machine

/-- The contents of BUF: (index, byte) pairs, indices strictly rising, all below BUF_DEPTH (`Memory.wf`). An
unlisted index has no value (10_state.md R29; log 3). -/
abbrev Memory := List Host.Cell

/-- DSTAT, the outcome of the last UNP_DECODE: 2 bits, four codes (R22). -/
inductive DStat where
  /-- Code 0: no UNP_DECODE since the last UNP_CLEAR or reset. -/
  | none
  /-- Code 1: validation passed. -/
  | ok
  /-- Code 2: LEN < 11 (the source's IncompleteResponse). -/
  | incomplete
  /-- Code 3: a header byte differs (the source's InvalidHeader). -/
  | badHeader
deriving DecidableEq, Repr

/-- ECAUSE, the cause of the first illegal command since ERR was last 0: 2 bits, four codes (R21). -/
inductive ECause where
  /-- Code 0: no illegal command recorded. -/
  | none
  /-- Code 1: UNDEFINED_OPCODE. -/
  | undefinedOpcode
  /-- Code 2: BAD_OPERAND. -/
  | badOperand
  /-- Code 3: reserved, never written by the block. -/
  | reserved
deriving DecidableEq, Repr

/-- VAL[0..3], the value file, by the names of R19. -/
structure ValFile where
  /-- VAL[0], humidity. -/
  hum  : Word
  /-- VAL[1], temperature. -/
  temp : Word
  /-- VAL[2], electrical conductivity. -/
  ec   : Word
  /-- VAL[3], pH. -/
  ph   : Word
deriving DecidableEq, Repr

/-- What the host presents on the input ports at one rising edge of `clk` (30_encoding.md R50). -/
structure PortEdge where
  rst      : Bool
  cmdValid : Bool
  cmd      : Word
deriving DecidableEq, Repr

/-- The state: the eight elements of R12, then two fields of the model's own. -/
structure State where
  /-- CRC, the running accumulator (R15). -/
  crc      : Word
  /-- BUF, the response buffer (R16). -/
  buf      : Memory
  /-- LEN, the saturating count of pushed bytes (R17). -/
  len      : Byte
  /-- VAL[0..3], the decoded values (R18). -/
  val      : ValFile
  /-- DSTAT (R22). -/
  dstat    : DStat
  /-- ERR, the sticky error flag (R20). -/
  err      : Bool
  /-- ECAUSE (R21). -/
  ecause   : ECause
  /-- RSP, the register behind the `rsp` port (R23). -/
  rsp      : Word
  /-- The model's own: a reset edge has happened since power-up (70_reset_and_hazards.md R110; log 5). -/
  hasReset : Bool
  /-- The model's own: what the host presents at the coming edges, the next edge first (R50, R51; log 1). -/
  inputs   : List PortEdge
deriving DecidableEq, Repr

/-- Why the model stops. None of these happens in a run from reset. -/
inductive Fault where
  /-- Raised by a read of a BUF cell nothing has written, index `k` (R29; log 3). Safe: the spec says the read
  never happens. -/
  | unwrittenCell (k : Nat)
  /-- Raised by an access to a BUF index outside 0..10, which does not exist (20_memory.md R32; log 6). Safe. -/
  | absentCell (k : Nat)
  /-- Raised by STAT_READ when ECAUSE holds its reserved code 3 (93_implementation_defined.md A; log 7). Safe. -/
  | reservedCause
deriving DecidableEq, Repr

/-- Why the model gives a step no meaning. -/
inductive Refusal where
  /-- An instruction without a meaning. No arm of `exec` answers it. -/
  | notModelled (mnemonic : String)
  /-- Raised at an edge that accepts a command before the first reset edge: its result is unspecified, and the
  spec's treatment is to refuse it (70_reset_and_hazards.md R110, 93_implementation_defined.md A; log 5). Safe. -/
  | beforeReset
deriving DecidableEq, Repr

/-- The three outcomes of a step of this machine. -/
abbrev Result := Host.Outcome State Fault Refusal

/-- The block right after a reset edge (R28). BUF is unspecified: no cell has a value (R29; log 3). No edge is
pending (log 2). -/
def State.reset : State where
  crc      := 0xFFFF#16
  buf      := []
  len      := 0x00#8
  val      := ⟨0x0000#16, 0x0000#16, 0x0000#16, 0x0000#16⟩
  dstat    := .none
  err      := false
  ecause   := .none
  rsp      := 0x0000#16
  hasReset := true
  inputs   := []

end Sys2Proof.Machine
end

