-- ==== Sys2Proof/Machine/Ops.lean ====
section
/-! DEFINITION. The named operations over the state: register writes (00_scope.md R10), the response buffer
(20_memory.md R31 to R36), the LEN increment (R37), recording a command error and acknowledging it
(60_exceptions.md R90, R99), and reset (70_reset_and_hazards.md R108). -/

namespace Sys2Proof.Machine

/-! ### Register writes, `X <- v` (R10) -/

/-- CRC <- v. -/
def State.setCrc (s : State) (v : Word) : State := { s with crc := v }

/-- BUF <- v. -/
def State.setBuf (s : State) (v : Memory) : State := { s with buf := v }

/-- LEN <- v. -/
def State.setLen (s : State) (v : Byte) : State := { s with len := v }

/-- VAL <- v. -/
def State.setVal (s : State) (v : ValFile) : State := { s with val := v }

/-- DSTAT <- v. -/
def State.setDstat (s : State) (v : DStat) : State := { s with dstat := v }

/-- ERR <- v. -/
def State.setErr (s : State) (v : Bool) : State := { s with err := v }

/-- ECAUSE <- v. -/
def State.setEcause (s : State) (v : ECause) : State := { s with ecause := v }

/-- RSP <- v. -/
def State.setRsp (s : State) (v : Word) : State := { s with rsp := v }

/-- the pending edges <- v. -/
def State.setInputs (s : State) (v : List PortEdge) : State := { s with inputs := v }

/-! ### Continuing after an operation that may fault -/

/-- Go on with the value of `r`, or stop with its fault. -/
def orFault {α : Type} (r : Except Fault α) (k : α → Result) : Result :=
  match r with
  | .ok a => k a
  | .error f => .fault f

/-! ### The response buffer -/

/-- The byte held at index `k`; `none` where nothing has been written (R29, R33; log 3). -/
def Memory.read : Memory → Nat → Option Byte
  | [], _ => none
  | (a, b) :: m, k => if a = k then some b else Memory.read m k

/-- Set the cell at index `k` to `v`, keeping the indices rising (R33). -/
def Memory.write : Memory → Nat → Byte → Memory
  | [], k, v => [(k, v)]
  | (a, b) :: m, k, v =>
    if k < a then (k, v) :: (a, b) :: m
    else if k = a then (k, v) :: m
    else (a, b) :: Memory.write m k v

/-- The canonical form: indices strictly rising, and all of them cells that exist (R32). -/
abbrev Memory.wf (m : Memory) : Prop :=
  m.Pairwise (fun c d => c.1 < d.1) ∧ ∀ c ∈ m, c.1 < Config.bufDepth

/-- `MemRead(BUF, k, 1)` (R33). It faults on an index that does not exist (R32; log 6) and on a cell that holds no
value (R29; log 3). -/
def memRead (s : State) (k : Nat) : Except Fault Byte :=
  if k < Config.bufDepth then
    match Memory.read s.buf k with
    | some b => .ok b
    | none => .error (.unwrittenCell k)
  else .error (.absentCell k)

/-- `MemWrite(BUF, k, 1, v)` (R33). It faults on an index that does not exist (R32; log 6). -/
def memWrite (s : State) (k : Nat) (v : Byte) : Except Fault State :=
  if k < Config.bufDepth then .ok (s.setBuf (Memory.write s.buf k v)) else .error (.absentCell k)

/-- The index a push stores to: LEN if LEN ≤ 10, else none (R34). -/
def pushIndex (s : State) : Option Nat :=
  if s.len.toNat ≤ 10 then some s.len.toNat else none

/-- `sat_inc`, the increment of LEN that stays at 255 (R37). -/
def satInc (n : Byte) : Byte := if n = Config.lenMax then Config.lenMax else n + 1#8

/-! ### Command errors, the block's one error mechanism -/

/-- The ECAUSE value that records a cause (R91). -/
def causeCode : IllegalCause → ECause
  | .undefinedOpcode => .undefinedOpcode
  | .badOperand => .badOperand

/-- `raise CmdError(cause)`: ECAUSE takes the cause only if ERR was 0, then ERR <- 1; nothing else changes (R90). -/
def raiseCmdError (cause : IllegalCause) (s : State) : State :=
  let s₁ := if s.err = false then s.setEcause (causeCode cause) else s
  s₁.setErr true

/-- The acknowledgement of an error: ERR <- 0, ECAUSE <- NONE, nothing else (R88, R99). -/
def clearErrorRecord (s : State) : State := (s.setErr false).setEcause .none

/-! ### Reset -/

/-- A reset edge: every element takes its reset value, whatever it held (R108, R110). The edges still to come are
the host's and stay. -/
def applyReset (s : State) : State := State.reset.setInputs s.inputs

end Sys2Proof.Machine
end

