-- ==== Sys2Proof/Machine/Operands.lean ====
section
/-! DEFINITION. Every operand form of the spec: the zero-extended byte operand (30_encoding.md R55), the value-file
index (R55, 41_unpack.md R82), and the big-endian Modbus register of a buffered frame (R72). -/

namespace Sys2Proof.Machine

/-- `zext_16(b)`, the byte operand as CRC_BYTE combines it (R55). -/
def zext16 (b : Byte) : Word := b.setWidth 16

/-- `be16(hi, lo) = (zext_16(hi) << 8) | zext_16(lo)` (R72). -/
def be16 (hi lo : Byte) : Word := (zext16 hi <<< 8) ||| zext16 lo

/-- VAL[i], by the 2-bit index of format I (R19, R55, R82). -/
def valAt (v : ValFile) (i : BitVec 2) : Word :=
  if i = 0#2 then v.hum
  else if i = 1#2 then v.temp
  else if i = 2#2 then v.ec
  else v.ph

/-- The offset of the high byte of Modbus register `i`: 3 + 2i (R6 REG_OFFSETS, R72). -/
def regOffset (i : Nat) : Nat := 3 + 2 * i

/-- Modbus register `i` of the buffered frame, the byte at the lower offset high (R39, R72). -/
def frameRegister (s : State) (i : Nat) : Except Fault Word := do
  let hi ← memRead s (regOffset i)
  let lo ← memRead s (regOffset i + 1)
  return be16 hi lo

/-- The four registers a successful decode writes to VAL (R78). -/
def frameValues (s : State) : Except Fault ValFile := do
  let hum ← frameRegister s 0
  let temp ← frameRegister s 1
  let ec ← frameRegister s 2
  let ph ← frameRegister s 3
  return ⟨hum, temp, ec, ph⟩

end Sys2Proof.Machine
end

