-- ==== Sys2Proof/Machine/Flags.lean ====
section
/-! DEFINITION. Every flag computation of the spec: the codes of DSTAT and ECAUSE (10_state.md R21, R22), the
validation outcome (41_unpack.md R71), and the assembled status word (10_state.md R24). -/

namespace Sys2Proof.Machine

/-- The 2-bit code of a decode status (R22). -/
def dstatCode : DStat → BitVec 2
  | .none => 0#2
  | .ok => 1#2
  | .incomplete => 2#2
  | .badHeader => 3#2

/-- The 2-bit code of an error cause (R21). -/
def ecauseCode : ECause → BitVec 2
  | .none => 0#2
  | .undefinedOpcode => 1#2
  | .badOperand => 2#2
  | .reserved => 3#2

/-- Whether the three header bytes are the expected ones (R71 step 2). -/
def headerMatches (addr func count : Byte) : Bool :=
  addr == Config.expAddr && func == Config.expFunc && count == Config.expByteCount

/-- `validate()`: the length first, then the header (R71). BUF is read only when LEN ≥ 11 (R35). -/
def validate (s : State) : Except Fault DStat :=
  if s.len.toNat < Config.minLen then .ok .incomplete
  else do
    let addr ← memRead s 0
    let func ← memRead s 1
    let count ← memRead s 2
    return if headerMatches addr func count then .ok else .badHeader

/-- STAT = LEN ++ 0b000 ++ ERR ++ ECAUSE ++ DSTAT, widths 8 + 3 + 1 + 2 + 2 (R24). -/
def statWord (s : State) : Word :=
  s.len ++ 0b000#3 ++ BitVec.ofBool s.err ++ ecauseCode s.ecause ++ dstatCode s.dstat

end Sys2Proof.Machine
end

