-- ==== Sys2Proof/Machine/Control.lean ====
section
/-! DEFINITION. The control and status commands (42_control.md R85, R87, R88). -/

namespace Sys2Proof.Machine

/-- NOP: no state changes (R85). -/
def execNop (s : State) : Result := .next s

/-- STAT_READ: `RSP <- STAT` (R87). A reserved ECAUSE, which the block never writes (R21), is a fault: STAT[3:2] = 3
is never produced (R24, 93_implementation_defined.md A; log 7). -/
def execStatRead (s : State) : Result :=
  match s.ecause with
  | .reserved => .fault .reservedCause
  | _ => .next (s.setRsp (statWord s))

/-- ERR_CLEAR: `ERR <- 0; ECAUSE <- NONE` (R88). -/
def execErrClear (s : State) : Result := .next (clearErrorRecord s)

end Sys2Proof.Machine
end

