-- ==== Sys2Proof/Machine/Crc.lean ====
section
/-! DEFINITION. The CRC unit: its pure functions (40_crc.md R63, R66) and its three commands (R64, R65, R67). -/

namespace Sys2Proof.Machine

/-- `crc_bit`, one iteration of the source's "repeat 8 times" (R63). -/
def crcBit (c : Word) : Word :=
  if c &&& 0x0001#16 ≠ 0#16 then (c >>> 1) ^^^ Config.crcPoly else c >>> 1

/-- `n` bit steps (R63). -/
def crcBits : Nat → Word → Word
  | 0, t => t
  | n + 1, t => crcBits n (crcBit t)

/-- `crc_update`: XOR the byte into the low half, then 8 bit steps (R63). -/
def crcUpdate (c : Word) (b : Byte) : Word := crcBits 8 (c ^^^ zext16 b)

/-- `crc16` of a byte sequence (R66). -/
def crc16 (d : List Byte) : Word := d.foldl crcUpdate Config.crcInit

/-- CRC_INIT: `CRC <- 0xFFFF` (R64). -/
def execCrcInit (s : State) : Result := .next (s.setCrc Config.crcInit)

/-- CRC_BYTE b: `CRC <- crc_update(CRC, b)` (R65). -/
def execCrcByte (b : Byte) (s : State) : Result := .next (s.setCrc (crcUpdate s.crc b))

/-- CRC_READ: `RSP <- CRC` (R67). -/
def execCrcRead (s : State) : Result := .next (s.setRsp s.crc)

end Sys2Proof.Machine
end

