-- ==== Sys2Proof/Machine/Unpack.lean ====
section
/-! DEFINITION. The unpacker's four commands (41_unpack.md R73, R75, R78, R82). -/

namespace Sys2Proof.Machine

/-- UNP_CLEAR: `LEN <- 0; DSTAT <- NONE` (R73). -/
def execUnpClear (s : State) : Result := .next ((s.setLen 0x00#8).setDstat .none)

/-- UNP_PUSH b: store the byte at index LEN if LEN ≤ 10, then `LEN <- sat_inc(LEN)` (R75). -/
def execUnpPush (b : Byte) (s : State) : Result :=
  match pushIndex s with
  | some k => orFault (memWrite s k b) fun s' => .next (s'.setLen (satInc s'.len))
  | none => .next (s.setLen (satInc s.len))

/-- UNP_DECODE: DSTAT takes the validation outcome; on OK the four registers go to VAL, else VAL stays (R78). -/
def execUnpDecode (s : State) : Result :=
  orFault (validate s) fun d =>
    match d with
    | .ok => orFault (frameValues s) fun v => .next ((s.setDstat .ok).setVal v)
    | failure => .next (s.setDstat failure)

/-- UNP_READ i: `RSP <- VAL[i]`, with no check of DSTAT (R82). -/
def execUnpRead (i : BitVec 2) (s : State) : Result := .next (s.setRsp (valAt s.val i))

end Sys2Proof.Machine
end

