-- ==== Sys2Proof/Machine/Dispatch.lean ====
section
/-! DEFINITION. The meaning of each command, one arm per constructor. -/

namespace Sys2Proof.Machine

def exec (i : Instr) (s : State) : Host.Outcome State Fault Refusal :=
  match i with
  | .nop => Sys2Proof.Machine.execNop s
  | .crcInit => Sys2Proof.Machine.execCrcInit s
  | .crcByte b => Sys2Proof.Machine.execCrcByte b s
  | .crcRead => Sys2Proof.Machine.execCrcRead s
  | .unpClear => Sys2Proof.Machine.execUnpClear s
  | .unpPush b => Sys2Proof.Machine.execUnpPush b s
  | .unpDecode => Sys2Proof.Machine.execUnpDecode s
  | .unpRead k => Sys2Proof.Machine.execUnpRead k s
  | .statRead => Sys2Proof.Machine.execStatRead s
  | .errClear => Sys2Proof.Machine.execErrClear s

end Sys2Proof.Machine
end

