-- ==== Sys2Proof/Machine/Port.lean ====
section
/-! DEFINITION. What one rising clock edge does (30_encoding.md R50, R51, R62; 70_reset_and_hazards.md R108 to R111),
and the output ports. `Step.lean` only calls this. -/

namespace Sys2Proof.Machine

/-- An edge at which the host presents nothing: `rst = 0`, `cmd_valid = 0` (R62). -/
def idleEdge : PortEdge := ⟨false, false, 0x0000#16⟩

/-- An edge at which the host presents one command word (R51). -/
def commandEdge (w : Word) : PortEdge := ⟨false, true, w⟩

/-- An edge at which the host asserts `rst` and presents no command (R108). -/
def resetEdge : PortEdge := ⟨true, false, 0x0000#16⟩

/-- What the ports carry at the coming edge; a host that presents nothing more idles (R62; log 2). -/
def presentedEdge (s : State) : PortEdge :=
  match s.inputs with
  | [] => idleEdge
  | e :: _ => e

/-- The edge has passed: what remains is what comes after it. -/
def passEdge (s : State) : State := s.setInputs s.inputs.tail

/-- A command is accepted if and only if `rst = 0` and `cmd_valid = 1` (R51). -/
def PortEdge.accepts (e : PortEdge) : Bool := !e.rst && e.cmdValid

/-- An accepted word executes whole: a legal command has its effect, an illegal word raises a command error and does
nothing else (R58, R90, R114). Before the first reset its result is unspecified, and it is refused (R110; log 5). -/
def acceptWord (w : Word) (s : State) : Result :=
  if s.hasReset then
    match decode w with
    | .cmd i => exec i s
    | .illegal cause => .next (raiseCmdError cause s)
  else .refused .beforeReset

/-- One rising edge: reset wins over a command (R109), an accepted command executes (R51), else nothing changes
(R62). -/
def clockEdge (e : PortEdge) (s : State) : Result :=
  if e.rst then .next (applyReset s)
  else if e.cmdValid then acceptWord e.cmd s
  else .next s

/-- The `rsp` output port: driven from RSP, not from `cmd` (R50, R116). -/
def rspPort (s : State) : Word := s.rsp

/-- The `cmd_ready` output port: constant 1 (R50). -/
def cmdReadyPort (_ : State) : Bool := true

/-- Put one edge before everything the host still presents. -/
def presentFirst (e : PortEdge) (s : State) : State := s.setInputs (e :: s.inputs)

end Sys2Proof.Machine
end

