-- ==== Sys2Proof/Machine/Step.lean ====
section
/-! DEFINITION. One step: one rising clock edge (70_reset_and_hazards.md R114, R117), at which the block takes what
the host presents. -/

namespace Sys2Proof.Machine

/-- The block at the next rising edge. -/
def step (s : State) : Host.Outcome State Fault Refusal := clockEdge (presentedEdge s) (passEdge s)

/-- `s` with the word of an opcode-table row presented as a command at the very next edge, to a block that has been
reset (30_encoding.md R51, 70_reset_and_hazards.md R111; log 8). -/
def State.withFetchWord (s : State) (nbits w : Nat) : State :=
  { presentFirst (commandEdge (tableWord nbits w)) s with hasReset := true }

end Sys2Proof.Machine
end

