-- ==== Sys2Proof/Machine/Assembler.lean ====
section
/-! DEFINITION. The assembler's notation (30_encoding.md R60) and the three pseudo-instructions (R61). A line is a
list of characters; the assembler answers its words in order, or `none` where it takes the line for no command. -/

namespace Sys2Proof.Machine

/-! ### Pseudo-instructions (R61) -/

/-- `CRC_MSG b0, …, bn-1`: CRC_INIT, then one CRC_BYTE per byte (R61). -/
def crcMsg (bytes : List Byte) : List Instr := .crcInit :: bytes.map .crcByte

/-- `UNP_FRAME b0, …, bn-1`: UNP_CLEAR, then one UNP_PUSH per byte (R61). -/
def unpFrame (bytes : List Byte) : List Instr := .unpClear :: bytes.map .unpPush

/-- `UNP_READ_ALL`: the four UNP_READs in order (R61). -/
def unpReadAll : List Instr := [.unpRead 0#2, .unpRead 1#2, .unpRead 2#2, .unpRead 3#2]

/-! ### Text -/

/-- The pieces of a text between the separators `c`. -/
def splitAtChar (c : Char) : List Char → List (List Char)
  | [] => [[]]
  | x :: xs =>
    if x = c then [] :: splitAtChar c xs
    else match splitAtChar c xs with
      | [] => [[x]]
      | piece :: rest => (x :: piece) :: rest

/-- The pieces of a text separated by one or more spaces (R60). DESIGN CHOICE: spaces before the first piece and after
the last, at the line's end or before `;`, are skipped too, and a tab is no space (log 10). -/
def spaced (text : List Char) : List (List Char) := (splitAtChar ' ' text).filter (· ≠ [])

/-- A line without its comment, which runs from `;` to the end (R60). -/
def uncommented (line : List Char) : List Char := line.takeWhile (· ≠ ';')

/-- The value of a decimal digit. -/
def decDigit (c : Char) : Option Nat :=
  if '0' ≤ c ∧ c ≤ '9' then some (c.toNat - '0'.toNat) else none

/-- The value of a hexadecimal digit, capital or small (log 10). -/
def hexDigit (c : Char) : Option Nat :=
  if 'A' ≤ c ∧ c ≤ 'F' then some (c.toNat - 'A'.toNat + 10)
  else if 'a' ≤ c ∧ c ≤ 'f' then some (c.toNat - 'a'.toNat + 10)
  else decDigit c

/-- The number that a text of digits of the base denotes, after `acc`. -/
def numberFrom (base : Nat) (digit : Char → Option Nat) (acc : Nat) : List Char → Option Nat
  | [] => some acc
  | c :: cs => match digit c with
    | some d => numberFrom base digit (base * acc + d) cs
    | none => none

/-- A decimal integer: one or more digits, leading zeros allowed (log 10). -/
def decimal (text : List Char) : Option Nat := if text = [] then none else numberFrom 10 decDigit 0 text

/-- `0x` and exactly `n` hexadecimal digits (`0xNN`, `0xNNNN`; log 10). -/
def hexadecimal (n : Nat) : List Char → Option Nat
  | '0' :: 'x' :: digits => if digits.length = n then numberFrom 16 hexDigit 0 digits else none
  | _ => none

/-- A byte operand: `0xNN`, or a decimal integer in 0..255 (R60). -/
def byteOperand (text : List Char) : Option Byte :=
  match hexadecimal 2 text with
  | some v => some (BitVec.ofNat 8 v)
  | none => match decimal text with
    | some v => if v ≤ 255 then some (BitVec.ofNat 8 v) else none
    | none => none

/-- An index operand: a decimal integer 0..3, or HUM, TEMP, EC, PH (R19, R60). -/
def indexOperand (text : List Char) : Option (BitVec 2) :=
  if text = "HUM".toList then some 0#2
  else if text = "TEMP".toList then some 1#2
  else if text = "EC".toList then some 2#2
  else if text = "PH".toList then some 3#2
  else match decimal text with
    | some v => if v ≤ 3 then some (BitVec.ofNat 2 v) else none
    | none => none

/-- The one operand of a piece between commas, written as a byte operand is, spaces around it skipped (log 10). -/
def soleByte (text : List Char) : Option Byte :=
  match spaced text with
  | [operand] => byteOperand operand
  | _ => none

/-- The bytes of a pseudo-instruction, separated by commas; nothing at all is no bytes (R61), and a missing byte beside a
comma is refused (log 10). -/
def byteList (text : List Char) : Option (List Byte) :=
  if spaced text = [] then some [] else (splitAtChar ',' text).mapM soleByte

/-- The format-Z commands by mnemonic (R53, R54). -/
def plainCommand (mnemonic : List Char) : Option Instr :=
  if mnemonic = "NOP".toList then some .nop
  else if mnemonic = "CRC_INIT".toList then some .crcInit
  else if mnemonic = "CRC_READ".toList then some .crcRead
  else if mnemonic = "UNP_CLEAR".toList then some .unpClear
  else if mnemonic = "UNP_DECODE".toList then some .unpDecode
  else if mnemonic = "STAT_READ".toList then some .statRead
  else if mnemonic = "ERR_CLEAR".toList then some .errClear
  else none

/-- The words of a mnemonic or directive and the text after it (R60, R61). -/
def assembleCommand (mnemonic rest : List Char) : Option (List Word) :=
  if mnemonic = "CRC_MSG".toList then (byteList rest).map fun bytes => (crcMsg bytes).map encode
  else if mnemonic = "UNP_FRAME".toList then (byteList rest).map fun bytes => (unpFrame bytes).map encode
  else match spaced rest with
    | [] =>
      if mnemonic = "UNP_READ_ALL".toList then some (unpReadAll.map encode)
      else (plainCommand mnemonic).map fun i => [encode i]
    | [operand] =>
      if mnemonic = "CRC_BYTE".toList then (byteOperand operand).map fun b => [encode (.crcByte b)]
      else if mnemonic = "UNP_PUSH".toList then (byteOperand operand).map fun b => [encode (.unpPush b)]
      else if mnemonic = "UNP_READ".toList then (indexOperand operand).map fun i => [encode (.unpRead i)]
      else if mnemonic = ".word".toList then (hexadecimal 4 operand).map fun w => [BitVec.ofNat 16 w]
      else none
    | _ => none

/-- The words of one line; a line that is blank or only a comment has none, and spaces before the mnemonic are skipped
(R60; log 10). -/
def assembleLine (line : List Char) : Option (List Word) :=
  let text := (uncommented line).dropWhile (· = ' ')
  if text = [] then some []
  else assembleCommand (text.takeWhile (· ≠ ' ')) (text.dropWhile (· ≠ ' '))

/-- The words of a program, one command per line (R60). -/
def assemble (lines : List (List Char)) : Option (List Word) := (lines.mapM assembleLine).map List.flatten

end Sys2Proof.Machine
end

