-- ==== Sys2Proof/Machine/Driver.lean ====
section
/-! DEFINITION. The host's side of the contract (60_exceptions.md R103 to R105), as plain functions beside the block.
00_scope.md R5 leaves it out of the block; nothing here is called by `step`. The host calls `step`, one command an edge. -/

namespace Sys2Proof.Machine

/-- The edges at which a host issues commands, one per edge (R103). -/
def commandEdges (program : List Instr) : List PortEdge := program.map fun i => commandEdge (encode i)

/-- The six bytes the request CRC covers: `01 03 00 00 00 04` (R2, R103). -/
def requestHeader : List Byte := [0x01#8, 0x03#8, 0x00#8, 0x00#8, 0x00#8, 0x04#8]

/-- The two wire bytes of the word CRC_READ returns: RSP[7:0] first, then RSP[15:8] (R38, R67). -/
def wireBytes (rsp : Word) : List Byte := [rsp.extractLsb' 0 8, rsp.extractLsb' 8 8]

/-- Step 1 of the host's cycle: the commands that compute the request CRC (R103). -/
def requestCommands : List Instr := crcMsg requestHeader ++ [.crcRead]

/-- The frame the host transmits (R103). -/
def requestFrame (rsp : Word) : List Byte := requestHeader ++ wireBytes rsp

/-- Step 5 of the host's cycle: push every received byte in order, decode, read the status (R76, R103). -/
def responseCommands (received : List Byte) : List Instr := unpFrame received ++ [.unpDecode, .statRead]

/-- The source's SensorReading. The three scaled fields are exact, in tenths (R104; log 11). -/
structure SensorReading where
  humidityTenths    : Int
  temperatureTenths : Int
  ec                : Int
  phTenths          : Int
deriving DecidableEq, Repr

/-- The host's conversion: VAL[0], VAL[1] and VAL[3] divided by 10, VAL[2] as it is (R104). -/
def sensorReading (v : ValFile) : SensorReading :=
  ⟨v.hum.toNat, v.temp.toNat, v.ec.toNat, v.ph.toNat⟩

/-- The sentinel `(-1.0, -1.0, -1, -1.0)` (R105). -/
def sentinel : SensorReading := ⟨-10, -10, -1, -10⟩

/-- The host's test of the status word: STAT[1:0] = OK (R103, R105). -/
abbrev statusOk (stat : Word) : Prop := stat.extractLsb' 0 2 = dstatCode .ok

/-- What the host returns after UNP_DECODE and STAT_READ: the sentinel if the transport failed or STAT[1:0] is not OK,
else the reading of the four values (R102, R105). -/
def hostResult (transportFailed : Bool) (stat : Word) (v : ValFile) : SensorReading :=
  if transportFailed = false ∧ statusOk stat then sensorReading v else sentinel

/-- Step 6 of the host's cycle: UNP_READ_ALL if STAT[1:0] = OK, else nothing (R103). -/
def readCommands (stat : Word) : List Instr := if statusOk stat then unpReadAll else []

/-- The four values that UNP_READ_ALL showed on `rsp`, in its order; no other number of words is a reading (R19, R61). -/
def readValues : List Word → Option ValFile
  | [hum, temp, ec, ph] => some ⟨hum, temp, ec, ph⟩
  | _ => none

/-! ### The cycle, carried out with the block -/

/-- What the host has of a run of the block: a result and the block after it, or the block's stop. -/
abbrev HostRun (α : Type) := Host.Outcome (α × State) Fault Refusal

/-- Go on with the result and the block, or keep the stop. -/
def HostRun.andThen {α β : Type} (r : HostRun α) (k : α → State → HostRun β) : HostRun β :=
  match r with
  | .next (a, s) => k a s
  | .fault f => .fault f
  | .refused q => .refused q

/-- Issue one command at the next edge and sample `rsp` after it (30_encoding.md R50, R51; R106). -/
def issueOne (i : Instr) (s : State) : HostRun Word :=
  match step (presentFirst (commandEdge (encode i)) s) with
  | .next t => .next (rspPort t, t)
  | .fault f => .fault f
  | .refused q => .refused q

/-- Issue the commands in order, one per edge: the words `rsp` shows after each (R103). -/
def issue : List Instr → State → HostRun (List Word)
  | [], s => .next ([], s)
  | i :: rest, s =>
    (issueOne i s).andThen fun w t => (issue rest t).andThen fun ws u => .next (w :: ws, u)

/-- The word the last of the issued commands left on `rsp`. -/
def lastWord (words : List Word) : Word := words.getLastD 0x0000#16

/-- Step 1: the block computes the CRC of the request, and the host builds the frame (R103). -/
def requestPhase (s : State) : HostRun (List Byte) :=
  (issue requestCommands s).andThen fun words t => .next (requestFrame (lastWord words), t)

/-- Steps 5 and 6: push what was received, decode, read the status, read the four values if it is OK, and return what
they say (R103 to R105). -/
def responsePhase (received : List Byte) (s : State) : HostRun SensorReading :=
  (issue (responseCommands received) s).andThen fun words t =>
    (issue (readCommands (lastWord words)) t).andThen fun values u =>
      .next (((readValues values).map (hostResult false (lastWord words))).getD sentinel, u)

/-- The request/response cycle. Steps 2 to 4 are outside the block: `transport` says what comes back for a frame, `none`
if it failed, and the host then issues no more commands (R102, R103, R105; log 11). -/
def hostCycle (transport : List Byte → Option (List Byte)) (s : State) : HostRun SensorReading :=
  (requestPhase s).andThen fun frame t =>
    match transport frame with
    | some received => responsePhase received t
    | none => .next (sentinel, t)

end Sys2Proof.Machine
end

