-- ==== Sys2Proof/Safety.lean ====
section
/-! DEFINITION. What claims are stated in: the invariant of the block, the source's decode step as one function of a
byte sequence (41_unpack.md R71, R72, R77), and runs of several edges. -/

namespace Sys2Proof.Machine

/-- The status and the decoded values that a whole received byte sequence has, as the source's §4.4 states the
decode: the length, then the header, then four big-endian registers at (3,4), (5,6), (7,8), (9,10). It reads the
sequence itself, not BUF. -/
def frameOutcome : List Byte → DStat × Option ValFile
  | b0 :: b1 :: b2 :: h1 :: h0 :: t1 :: t0 :: e1 :: e0 :: p1 :: p0 :: _ =>
    if b0 = 0x01#8 ∧ b1 = 0x03#8 ∧ b2 = 0x08#8 then (.ok, some ⟨h1 ++ h0, t1 ++ t0, e1 ++ e0, p1 ++ p0⟩)
    else (.badHeader, none)
  | _ => (.incomplete, none)

/-- The block's invariant: true after every reset edge, kept by every edge. -/
structure State.Inv (s : State) : Prop where
  /-- BUF is in canonical form, with no index but 0..10 (20_memory.md R32). -/
  bufCanonical : Memory.wf s.buf
  /-- The first min(LEN, 11) cells have been written (20_memory.md R34, R36). -/
  pushedWritten : ∀ k < 11, k < s.len.toNat → (Memory.read s.buf k).isSome = true
  /-- ECAUSE is NONE whenever ERR = 0 (10_state.md R21). -/
  noErrNoCause : s.err = false → s.ecause = .none
  /-- A set ERR has a cause (60_exceptions.md R90). -/
  errHasCause : s.err = true → s.ecause = .undefinedOpcode ∨ s.ecause = .badOperand
  /-- DSTAT = OK: the buffered frame validates, and VAL holds what it decodes to (10_state.md R22, 41_unpack.md R79). -/
  okFresh : s.dstat = .ok → 11 ≤ s.len.toNat ∧ validate s = .ok .ok ∧ frameValues s = .ok s.val
  /-- DSTAT = BAD_HEADER: the buffered frame is long enough and its header is wrong (10_state.md R22). -/
  badHeaderFresh : s.dstat = .badHeader → 11 ≤ s.len.toNat ∧ validate s = .ok .badHeader

/-- The CRC unit's commands (40_crc.md). -/
def isCrcCommand : Instr → Bool
  | .crcInit | .crcByte _ | .crcRead => true
  | .nop | .unpClear | .unpPush _ | .unpDecode | .unpRead _ | .statRead | .errClear => false

/-- The unpacker's commands (41_unpack.md). -/
def isUnpackerCommand : Instr → Bool
  | .unpClear | .unpPush _ | .unpDecode | .unpRead _ => true
  | .nop | .crcInit | .crcByte _ | .crcRead | .statRead | .errClear => false

/-- The control and status commands (42_control.md). -/
def isControlCommand : Instr → Bool
  | .nop | .statRead | .errClear => true
  | .crcInit | .crcByte _ | .crcRead | .unpClear | .unpPush _ | .unpDecode | .unpRead _ => false

/-- The coming edge is a reset edge (70_reset_and_hazards.md R108). -/
def resetPresented (s : State) : Prop := (presentedEdge s).rst = true

/-- The coming edge accepts this command, written as the word the opcode map gives it (30_encoding.md R51, R54). -/
def commandPresented (s : State) (i : Instr) : Prop := presentedEdge s = commandEdge (encode i)

/-- The word `op ++ imm` is a bad operand of its command (30_encoding.md R57): it decodes to that error, and accepted, it
records the error and has none of the command's own effect (60_exceptions.md R90). -/
def rejectsOperand (op imm : Byte) : Prop :=
  decode (op ++ imm) = .illegal .badOperand ∧
  ∀ (s : State) (rest : List PortEdge), s.hasReset = true → s.inputs = ⟨false, true, op ++ imm⟩ :: rest →
    step s = .next { s with
      err := true, ecause := if s.err = true then s.ecause else .badOperand, inputs := rest }

/-- The block after `n` edges, stopping at a stop. -/
def runEdges (n : Nat) (s : State) : Result := Host.Core.run Sys2Proof.core n s

end Sys2Proof.Machine
end

