-- ==== Sys2Proof/Certificates/Slice0/Obligations.lean ====
section
/-! DEFINITION. The statements for the provers, in the order of OBLIGATIONS.json: encoding, the edge, the CRC unit, the
unpacker, control and errors, the whole machine, notation. Every docstring names the rules a statement formalises. -/

open Sys2Proof Sys2Proof.Machine

/-! ### Encoding -/

/-- Words written out from the opcode map decode to the commands they stand for, and to the named errors
(30_encoding.md R54, R58; 95_test_vectors.md W1 to W9). -/
def Obligations.SpecWordsDecode : Prop :=
  decode 0b00000000_00000000#16 = .cmd .nop ∧
  decode 0b00000010_00000011#16 = .cmd (.crcByte 0x03#8) ∧
  decode 0b00010001_11110100#16 = .cmd (.unpPush 244#8) ∧
  decode 0b00010011_00000011#16 = .cmd (.unpRead 3#2) ∧
  decode 0b00100001_00000000#16 = .cmd .errClear ∧
  decode 0b00100001_00000001#16 = .illegal .badOperand ∧
  decode 0b00010011_11111111#16 = .illegal .badOperand ∧
  decode 0b00000100_00000000#16 = .illegal .undefinedOpcode ∧
  decode 0b11111111_11111111#16 = .illegal .undefinedOpcode

/-- Decoding the word of a command gives the command back, with every operand (R54, R55, R58). -/
def Obligations.DecodeEncodeRoundTrip : Prop :=
  ∀ i : Instr, decode (encode i) = .cmd i

/-- Only one word stands for a command: a word that decodes to it is its encoding (R54, R58). -/
def Obligations.DecodedWordIsItsEncoding : Prop :=
  ∀ (w : Word) (i : Instr), decode w = .cmd i → encode i = w

/-- A word decodes to a command if and only if it selects a row of the printed map, that row is the command's own, and
no word selects two rows (R54). -/
def Obligations.DecodeFollowsTheOpcodeMap : Prop :=
  (∀ w : Word, (∃ i, decode w = .cmd i) ↔ ∃ r ∈ opcodeRows, r.selects w = true) ∧
  (∀ (w : Word) (i : Instr), decode w = .cmd i → ∃ r ∈ opcodeRows, r.selects w = true ∧ r.mnemonic = i.mnemonic) ∧
  (∀ (w : Word) (r r' : OpcodeRow), r ∈ opcodeRows → r' ∈ opcodeRows → r.selects w = true → r'.selects w = true → r = r')

/-- A word decodes to a command if and only if its fields are legal (R53, R56, R57). -/
def Obligations.DecodeAcceptsExactlyTheLegalFields : Prop :=
  ∀ w : Word, (∃ i, decode w = .cmd i) ↔ wellFormedFields (opField w) (immField w) = true

/-- A word whose OP, its upper eight bits, is not one of the ten defined values, whatever its IMM8, is an undefined
opcode; these are 246 OP values; and an accepted one raises a command error with that cause (R56). -/
def Obligations.UndefinedOpcodes : Prop :=
  (∀ w : Word, decode w = .illegal .undefinedOpcode ↔
    w.toNat / 256 ∉ [0x00, 0x01, 0x02, 0x03, 0x10, 0x11, 0x12, 0x13, 0x20, 0x21]) ∧
  ((List.range 256).filter
    (fun op => decide (op ∉ [0x00, 0x01, 0x02, 0x03, 0x10, 0x11, 0x12, 0x13, 0x20, 0x21]))).length = 246 ∧
  (∀ (s : State) (w : Word) (rest : List PortEdge), s.hasReset = true → s.inputs = ⟨false, true, w⟩ :: rest →
    w.toNat / 256 ∉ [0x00, 0x01, 0x02, 0x03, 0x10, 0x11, 0x12, 0x13, 0x20, 0x21] →
    step s = .next { s with
      err := true, ecause := if s.err = true then s.ecause else .undefinedOpcode, inputs := rest })

/-- A word of a format-Z OP with IMM8 not 0, or of UNP_READ with IMM8 above 3, is a bad operand, and no other word is;
an accepted one raises a command error with that cause and has none of the command's own effect (R57). -/
def Obligations.BadOperands : Prop :=
  (∀ w : Word, decode w = .illegal .badOperand ↔
    (w.toNat / 256 ∈ [0x00, 0x01, 0x03, 0x10, 0x12, 0x20, 0x21] ∧ w.toNat % 256 ≠ 0) ∨
    (w.toNat / 256 = 0x13 ∧ 3 < w.toNat % 256)) ∧
  (∀ (s : State) (w : Word) (rest : List PortEdge), s.hasReset = true → s.inputs = ⟨false, true, w⟩ :: rest →
    (w.toNat / 256 ∈ [0x00, 0x01, 0x03, 0x10, 0x12, 0x20, 0x21] ∧ w.toNat % 256 ≠ 0) ∨
      (w.toNat / 256 = 0x13 ∧ 3 < w.toNat % 256) →
    step s = .next { s with
      err := true, ecause := if s.err = true then s.ecause else .badOperand, inputs := rest })

/-! ### The edge -/

/-- At an edge that accepts a word which decodes to a command, the step is that command's meaning, at the state from
which the edge has been taken away (R51, R58, R114). -/
def Obligations.StepRunsTheDecodedCommand : Prop :=
  ∀ (s : State) (w : Word) (rest : List PortEdge) (i : Instr),
    s.hasReset = true → s.inputs = ⟨false, true, w⟩ :: rest → decode w = .cmd i →
    step s = exec i { s with inputs := rest }

/-- A word placed by `withFetchWord` is the one the very next step runs (the model's interface, log 8; R51, R111). -/
def Obligations.PlacedWordRunsNext : Prop :=
  ∀ (s : State) (nbits w : Nat) (i : Instr), decodeTableWord nbits w = some i →
    step (s.withFetchWord nbits w) = exec i { s with hasReset := true }

/-- An accepted illegal word records its cause only if ERR was 0, sets ERR, and changes nothing else; the block goes on
with the next edge (60_exceptions.md R90). -/
def Obligations.IllegalWordOnlyRecordsItsCause : Prop :=
  ∀ (s : State) (w : Word) (rest : List PortEdge) (c : IllegalCause),
    s.hasReset = true → s.inputs = ⟨false, true, w⟩ :: rest → decode w = .illegal c →
    ∃ t, step s = .next t ∧ t.err = true ∧
      (s.err = true → t.ecause = s.ecause) ∧
      (s.err = false → ecauseCode t.ecause = (match c with | .undefinedOpcode => 1#2 | .badOperand => 2#2)) ∧
      t = { s with err := true, ecause := t.ecause, inputs := rest }

/-- At an edge with `rst = 0` and `cmd_valid = 0` nothing changes, whatever `cmd` holds (30_encoding.md R62). -/
def Obligations.IdleEdgeChangesNothing : Prop :=
  ∀ (s : State) (cmd : Word) (rest : List PortEdge), s.inputs = ⟨false, false, cmd⟩ :: rest →
    step s = .next { s with inputs := rest }

/-- When the list of presented edges is used up, the block idles (the model's choice, log 2). -/
def Obligations.NothingPresentedIsIdle : Prop :=
  ∀ s : State, s.inputs = [] → step s = .next s

/-- At an edge with `rst = 1` every element the spec gives a reset value takes it, whatever `cmd_valid` and `cmd` are
and whatever the state was; the command there is lost and raises no error (70_reset_and_hazards.md R108, R109). -/
def Obligations.ResetEdgeGivesTheResetValues : Prop :=
  ∀ (s : State) (valid : Bool) (cmd : Word) (rest : List PortEdge), s.inputs = ⟨true, valid, cmd⟩ :: rest →
    ∃ t, step s = .next t ∧ t.crc = 0xFFFF#16 ∧ t.len = 0x00#8 ∧
      t.val = ⟨0x0000#16, 0x0000#16, 0x0000#16, 0x0000#16⟩ ∧ dstatCode t.dstat = 0#2 ∧ t.err = false ∧
      ecauseCode t.ecause = 0#2 ∧ t.rsp = 0x0000#16 ∧ rspPort t = 0x0000#16 ∧ t.inputs = rest

/-- Any number of reset edges, one or more, from any state, gives what one gives: the reset state. That its BUF holds no
value is the model's (log 3, log 4); the other elements are R28's (70_reset_and_hazards.md R110). -/
def Obligations.OneResetEdgeSuffices : Prop :=
  ∀ (s : State) (edges rest : List PortEdge), edges ≠ [] → (∀ e ∈ edges, e.rst = true) → s.inputs = edges ++ rest →
    runEdges edges.length s = .next { State.reset with inputs := rest }

/-- The state after reset (10_state.md R28). -/
def Obligations.ResetStateHoldsTheResetValues : Prop :=
  State.reset.crc = 0xFFFF#16 ∧ State.reset.len = 0x00#8 ∧
  (∀ k : BitVec 2, valAt State.reset.val k = 0x0000#16) ∧
  dstatCode State.reset.dstat = 0#2 ∧ State.reset.err = false ∧ ecauseCode State.reset.ecause = 0#2 ∧
  State.reset.rsp = 0x0000#16

/-- A command accepted before the first reset edge is refused, the spec's own treatment of its unspecified result
(70_reset_and_hazards.md R110, 93_implementation_defined.md A; log 5). -/
def Obligations.CommandBeforeResetIsRefused : Prop :=
  ∀ (s : State) (w : Word) (rest : List PortEdge), s.hasReset = false → s.inputs = ⟨false, true, w⟩ :: rest →
    step s = .refused .beforeReset

/-! ### The CRC unit -/

/-- CRC_INIT: its word, its bad operands, and `CRC <- 0xFFFF` with nothing else changed (40_crc.md R64). -/
def Obligations.CrcInitSetsTheInitialValue : Prop :=
  decode 0x0100#16 = .cmd .crcInit ∧
  (∀ imm : Byte, imm ≠ 0x00#8 → rejectsOperand 0x01#8 imm) ∧
  (∀ s : State, exec .crcInit s = .next { s with crc := 0xFFFF#16 })

/-- CRC_BYTE: every byte is legal; `CRC <- crc_update(CRC, b)` with nothing else changed; and the rule's own corner
cases and example (40_crc.md R65). -/
def Obligations.CrcByteFoldsOneByte : Prop :=
  (∀ b : Byte, decode (0x02#8 ++ b) = .cmd (.crcByte b)) ∧
  (∀ (s : State) (b : Byte), exec (.crcByte b) s = .next { s with crc := crcUpdate s.crc b }) ∧
  crcUpdate 0xFFFF#16 0x00#8 = 0x40BF#16 ∧ crcUpdate 0x0001#16 0x01#8 = 0x0000#16 ∧
  crcUpdate 0x0000#16 0x00#8 = 0x0000#16 ∧ crcUpdate 0xFFFF#16 0xFF#8 = 0x00FF#16 ∧
  crcUpdate 0xFFFF#16 0x01#8 = 0x807E#16 ∧
  (∀ c : Word, c ^^^ zext16 (c.extractLsb' 0 8) = c &&& 0xFF00#16)

/-- CRC_READ: its word, its bad operands, and `RSP <- CRC`, crc_lo in RSP[7:0] and crc_hi in RSP[15:8], with nothing
else changed; and the rule's example (40_crc.md R67). -/
def Obligations.CrcReadPutsTheCrcOnRsp : Prop :=
  decode 0x0300#16 = .cmd .crcRead ∧
  (∀ imm : Byte, imm ≠ 0x00#8 → rejectsOperand 0x03#8 imm) ∧
  (∀ s : State, exec .crcRead s = .next { s with rsp := s.crc }) ∧
  (∀ s t : State, exec .crcRead s = .next t →
    wireBytes (rspPort t) = [BitVec.ofNat 8 (s.crc.toNat % 256), BitVec.ofNat 8 (s.crc.toNat / 256)]) ∧
  crc16 [0x01#8, 0x03#8, 0x00#8, 0x00#8, 0x00#8, 0x04#8] = 0x0944#16 ∧ wireBytes 0x0944#16 = [0x44#8, 0x09#8]

/-- The bit step and the byte update, in numbers: a 0 comes in at bit 15, the polynomial is applied exactly when the
bit shifted out is 1, and a byte takes eight steps after it is XORed into the low half (40_crc.md R63). -/
def Obligations.CrcBitStepShiftsRight : Prop :=
  (∀ c : Word, c.toNat % 2 = 1 → crcBit c = BitVec.ofNat 16 (c.toNat / 2) ^^^ 0xA001#16) ∧
  (∀ c : Word, c.toNat % 2 = 0 → crcBit c = BitVec.ofNat 16 (c.toNat / 2)) ∧
  (∀ (c : Word) (b : Byte), crcUpdate c b =
    crcBit (crcBit (crcBit (crcBit (crcBit (crcBit (crcBit (crcBit (c ^^^ BitVec.ofNat 16 b.toNat)))))))))

/-- The table-driven form computes the same CRC update, and the six table entries the spec prints are right
(40_crc.md R68, which marks the equality as derived). -/
def Obligations.TableDrivenCrcAgrees : Prop :=
  (∀ (c : Word) (b : Byte),
    crcUpdate c b = (c >>> 8) ^^^ crcUpdate 0x0000#16 ((c ^^^ zext16 b).extractLsb' 0 8)) ∧
  crcUpdate 0 0x00#8 = 0x0000#16 ∧ crcUpdate 0 0x01#8 = 0xC0C1#16 ∧ crcUpdate 0 0x02#8 = 0xC181#16 ∧
  crcUpdate 0 0x80#8 = 0xA001#16 ∧ crcUpdate 0 0xC0#8 = 0x5000#16 ∧ crcUpdate 0 0xFF#8 = 0x4040#16

/-- Issuing CRC_MSG over any byte sequence leaves its crc16 in CRC, from any reset block, and changes nothing else; the
empty sequence gives 0xFFFF (40_crc.md R66, 30_encoding.md R61). -/
def Obligations.CrcMsgComputesCrc16 : Prop :=
  (∀ (s : State) (d : List Byte) (rest : List PortEdge),
    s.hasReset = true → s.inputs = commandEdges (crcMsg d) ++ rest →
    runEdges (d.length + 1) s = .next { s with crc := crc16 d, inputs := rest }) ∧
  crc16 [] = 0xFFFF#16 ∧ (∀ (d : List Byte) (b : Byte), crc16 (d ++ [b]) = crcUpdate (crc16 d) b)

/-- A byte sequence followed by its own CRC bytes, low first, has CRC 0, and a host that checks it with any reset block
reads 0 on `rsp` (40_crc.md R69, which marks the property as general knowledge). -/
def Obligations.FrameWithItsCrcHasZeroResidue : Prop :=
  (∀ d : List Byte, crc16 (d ++ wireBytes (crc16 d)) = 0x0000#16) ∧
  (∀ (s : State) (d : List Byte) (rest : List PortEdge),
    s.hasReset = true → s.inputs = commandEdges (crcMsg (d ++ wireBytes (crc16 d)) ++ [.crcRead]) ++ rest →
    ∃ t, runEdges (d.length + 4) s = .next t ∧ rspPort t = 0x0000#16)

/-- No CRC command writes or reads BUF, LEN, VAL or DSTAT, and no unpacker command writes or reads CRC
(40_crc.md R70). -/
def Obligations.CrcUnitAndUnpackerAreIndependent : Prop :=
  (∀ (i : Instr) (s t : State), isCrcCommand i = true → exec i s = .next t →
    (t.buf = s.buf ∧ t.len = s.len ∧ t.val = s.val ∧ t.dstat = s.dstat) ∧
    ∀ (m : Memory) (n : Byte) (v : ValFile) (d : DStat),
      exec i { s with buf := m, len := n, val := v, dstat := d } =
        .next { t with buf := m, len := n, val := v, dstat := d }) ∧
  (∀ (i : Instr) (s t : State), isUnpackerCommand i = true → exec i s = .next t →
    t.crc = s.crc ∧ ∀ c : Word, exec i { s with crc := c } = .next { t with crc := c })

/-! ### The unpacker -/

/-- UNP_CLEAR: its word, its bad operands, and `LEN <- 0; DSTAT <- NONE` with nothing else changed, BUF and VAL
included (41_unpack.md R73). -/
def Obligations.UnpClearStartsANewFrame : Prop :=
  decode 0x1000#16 = .cmd .unpClear ∧
  (∀ imm : Byte, imm ≠ 0x00#8 → rejectsOperand 0x10#8 imm) ∧
  (∀ s : State, exec .unpClear s = .next { s with len := 0x00#8, dstat := .none })

/-- UNP_PUSH: every byte is legal and every push completes; it stores at `pushIndex`, which is LEN if LEN ≤ 10 and
nowhere else; every other cell reads as before; LEN counts, staying at 255; nothing else changes
(41_unpack.md R75, 20_memory.md R34, R37). -/
def Obligations.UnpPushStoresAndCounts : Prop :=
  (∀ b : Byte, decode (0x11#8 ++ b) = .cmd (.unpPush b)) ∧
  (∀ s : State, (s.len.toNat ≤ 10 → pushIndex s = some s.len.toNat) ∧ (11 ≤ s.len.toNat → pushIndex s = none)) ∧
  (∀ (s : State) (b : Byte), ∃ t, exec (.unpPush b) s = .next t ∧
    (∀ k, pushIndex s = some k → Memory.read t.buf k = some b ∧ ∀ a, a ≠ k → Memory.read t.buf a = Memory.read s.buf a) ∧
    (pushIndex s = none → t.buf = s.buf) ∧
    t.len.toNat = (if s.len.toNat = 255 then 255 else s.len.toNat + 1) ∧
    t = { s with buf := t.buf, len := t.len })

/-- Issuing UNP_FRAME over any byte sequence to any reset block leaves its first eleven bytes in BUF in order and its
length, at most 255, in LEN; every other cell reads as before, and only BUF, LEN and DSTAT change (20_memory.md R34, R37, R61). -/
def Obligations.FramePushesFillTheBufferInOrder : Prop :=
  ∀ (s : State) (bytes : List Byte) (rest : List PortEdge),
    s.hasReset = true → s.inputs = commandEdges (unpFrame bytes) ++ rest →
    ∃ t, runEdges (bytes.length + 1) s = .next t ∧ t.len.toNat = min bytes.length 255 ∧
      (∀ k, k < 11 → k < bytes.length → Memory.read t.buf k = bytes[k]?) ∧
      (∀ k, 11 ≤ k ∨ bytes.length ≤ k → Memory.read t.buf k = Memory.read s.buf k) ∧
      t = { s with buf := t.buf, len := t.len, dstat := .none, inputs := rest }

/-- UNP_DECODE: its word, its bad operands, and the three outcomes of the validation in the rule's order, with VAL
written only on OK and nothing else changed. The cells a decode reads have been written, as the invariant says of
every state a reset block reaches (41_unpack.md R71, R78). -/
def Obligations.UnpDecodeValidatesThenDecodes : Prop :=
  decode 0x1200#16 = .cmd .unpDecode ∧
  (∀ imm : Byte, imm ≠ 0x00#8 → rejectsOperand 0x12#8 imm) ∧
  (∀ s : State, s.len.toNat < 11 → exec .unpDecode s = .next { s with dstat := .incomplete }) ∧
  (∀ (s : State) (addr func count : Byte), 11 ≤ s.len.toNat → Memory.read s.buf 0 = some addr →
    Memory.read s.buf 1 = some func → Memory.read s.buf 2 = some count →
    addr ≠ 0x01#8 ∨ func ≠ 0x03#8 ∨ count ≠ 0x08#8 →
    exec .unpDecode s = .next { s with dstat := .badHeader }) ∧
  (∀ (s : State) (c : Fin 11 → Byte), 11 ≤ s.len.toNat → (∀ k : Fin 11, Memory.read s.buf k.val = some (c k)) →
    c 0 = 0x01#8 → c 1 = 0x03#8 → c 2 = 0x08#8 →
    exec .unpDecode s = .next { s with
      dstat := .ok, val := ⟨c 3 ++ c 4, c 5 ++ c 6, c 7 ++ c 8, c 9 ++ c 10⟩ })

/-- A decode that comes to a cell with no value faults, naming the first such cell: one of the three header cells, or,
the header being right, one of the eight after them (the model's choice, log 3; the spec says this cannot happen,
10_state.md R29). -/
def Obligations.UnpDecodeFaultsOnAnUnwrittenCell : Prop :=
  ∀ (s : State) (k : Nat), 11 ≤ s.len.toNat → k < 11 → Memory.read s.buf k = none →
    (∀ j, j < k → (Memory.read s.buf j).isSome = true) →
    k ≤ 2 ∨ (Memory.read s.buf 0 = some 0x01#8 ∧ Memory.read s.buf 1 = some 0x03#8 ∧
      Memory.read s.buf 2 = some 0x08#8) →
    exec .unpDecode s = .fault (.unwrittenCell k)

/-- From any reset block, UNP_FRAME over any byte sequence and then UNP_DECODE reports what the source's decode step says of
the sequence: the outcome in DSTAT, and on success the four values in VAL, which otherwise keeps its own. CRC, RSP and
the error record do not change (41_unpack.md R71, R72, R77, R78, R81, R83). -/
def Obligations.FrameDecodeIsTheSourcesDecode : Prop :=
  ∀ (s : State) (bytes : List Byte) (rest : List PortEdge),
    s.hasReset = true → s.inputs = commandEdges (unpFrame bytes ++ [.unpDecode]) ++ rest →
    ∃ t, runEdges (bytes.length + 2) s = .next t ∧
      t.dstat = (frameOutcome bytes).1 ∧ t.val = ((frameOutcome bytes).2).getD s.val ∧
      t = { s with buf := t.buf, len := t.len, dstat := t.dstat, val := t.val, inputs := rest }

/-- In any reset block, bytes after the eleventh, a response CRC among them, change neither the status nor the values
(41_unpack.md R77, R81). -/
def Obligations.TrailingBytesAreIgnored : Prop :=
  ∀ (s : State) (bytes extra : List Byte), 11 ≤ bytes.length → s.hasReset = true →
    ∃ t t',
      runEdges (bytes.length + 2)
        { s with inputs := commandEdges (unpFrame bytes ++ [.unpDecode]) } = .next t ∧
      runEdges (bytes.length + extra.length + 2)
        { s with inputs := commandEdges (unpFrame (bytes ++ extra) ++ [.unpDecode]) } = .next t' ∧
      t'.dstat = t.dstat ∧ t'.val = t.val ∧ t'.buf = t.buf

/-- UNP_DECODE neither consumes nor changes the frame, a second one changes nothing, and after a successful one more
pushes change neither the buffer nor what a later UNP_DECODE gives (41_unpack.md R79). -/
def Obligations.DecodeDoesNotConsumeTheFrame : Prop :=
  (∀ s t : State, exec .unpDecode s = .next t → t.buf = s.buf ∧ t.len = s.len ∧ exec .unpDecode t = .next t) ∧
  (∀ (s t : State) (bytes : List Byte) (rest : List PortEdge),
    exec .unpDecode s = .next t → t.dstat = .ok → t.hasReset = true →
    t.inputs = commandEdges (bytes.map .unpPush ++ [.unpDecode]) ++ rest →
    ∃ u, runEdges (bytes.length + 1) t = .next u ∧ u.dstat = .ok ∧ u.val = t.val ∧ u.buf = t.buf)

/-- UNP_READ: its four words, its bad operands, and `RSP <- VAL[i]` in the order humidity, temperature, EC, pH, with
nothing else changed and DSTAT not asked (41_unpack.md R82). -/
def Obligations.UnpReadPutsTheValueOnRsp : Prop :=
  (∀ k : BitVec 2, decode (0x13#8 ++ (0#6 ++ k)) = .cmd (.unpRead k)) ∧
  (∀ imm : Byte, 3 < imm.toNat → rejectsOperand 0x13#8 imm) ∧
  (∀ s : State, exec (.unpRead 0#2) s = .next { s with rsp := s.val.hum } ∧
    exec (.unpRead 1#2) s = .next { s with rsp := s.val.temp } ∧
    exec (.unpRead 2#2) s = .next { s with rsp := s.val.ec } ∧
    exec (.unpRead 3#2) s = .next { s with rsp := s.val.ph })

/-- The big-endian assembly: the first byte is the high one, the value is unsigned and loses no bit, and register `i`
comes from bytes 3 + 2i and 4 + 2i (41_unpack.md R72, R80). -/
def Obligations.ModbusRegistersAreBigEndian : Prop :=
  (∀ hi lo : Byte, be16 hi lo = hi ++ lo ∧ hi ++ lo = ((zext16 hi <<< 8) ||| zext16 lo : Word) ∧
    (be16 hi lo).toNat = 256 * hi.toNat + lo.toNat) ∧
  (∀ (s : State) (i : Nat) (hi lo : Byte), i ≤ 3 → Memory.read s.buf (3 + 2 * i) = some hi →
    Memory.read s.buf (4 + 2 * i) = some lo → frameRegister s i = .ok (hi ++ lo))

/-! ### Control, status and errors -/

/-- NOP: its word, its bad operands, and no state changes (42_control.md R85). -/
def Obligations.NopChangesNothing : Prop :=
  decode 0x0000#16 = .cmd .nop ∧
  (∀ imm : Byte, imm ≠ 0x00#8 → rejectsOperand 0x00#8 imm) ∧
  (∀ s : State, exec .nop s = .next s)

/-- STAT_READ: its word, its bad operands, and `RSP <- STAT`, field by field in numbers, with nothing else changed. ECAUSE is
not its reserved code, which the block never writes (10_state.md R21, R24, 42_control.md R87). -/
def Obligations.StatReadAssemblesTheStatus : Prop :=
  decode 0x2000#16 = .cmd .statRead ∧
  (∀ imm : Byte, imm ≠ 0x00#8 → rejectsOperand 0x20#8 imm) ∧
  (∀ s : State, s.ecause ≠ .reserved → ∃ t, exec .statRead s = .next t ∧ t = { s with rsp := t.rsp } ∧
    t.rsp.extractLsb' 8 8 = s.len ∧ t.rsp.extractLsb' 5 3 = 0b000#3 ∧
    t.rsp.getLsbD 4 = s.err ∧
    t.rsp.extractLsb' 2 2 = (match s.ecause with
      | .none => 0#2 | .undefinedOpcode => 1#2 | .badOperand => 2#2 | .reserved => 3#2) ∧
    t.rsp.extractLsb' 0 2 = (match s.dstat with
      | .none => 0#2 | .ok => 1#2 | .incomplete => 2#2 | .badHeader => 3#2))

/-- A STAT_READ that would produce the reserved cause faults (the model's choice, log 7; 93_implementation_defined.md A). -/
def Obligations.StatReadFaultsOnTheReservedCause : Prop :=
  ∀ s : State, s.ecause = .reserved → exec .statRead s = .fault .reservedCause

/-- ERR_CLEAR: its word, its bad operands, which do not clear and leave ERR at 1, and `ERR <- 0; ECAUSE <- NONE` with
nothing else changed (42_control.md R88). -/
def Obligations.ErrClearClearsTheErrorRecord : Prop :=
  decode 0x2100#16 = .cmd .errClear ∧
  (∀ imm : Byte, imm ≠ 0x00#8 → rejectsOperand 0x21#8 imm) ∧
  (∀ s : State, exec .errClear s = .next { s with err := false, ecause := .none })

/-- The control commands write only ERR and ECAUSE (ERR_CLEAR) and RSP (STAT_READ), and CRC, BUF, VAL and RSP have no
part in what they do (42_control.md R86). -/
def Obligations.ControlCommandsTouchOnlyTheirOwn : Prop :=
  ∀ (i : Instr) (s t : State), isControlCommand i = true → exec i s = .next t →
    t.crc = s.crc ∧ t.buf = s.buf ∧ t.len = s.len ∧ t.val = s.val ∧ t.dstat = s.dstat ∧
    (i ≠ .errClear → t.err = s.err ∧ t.ecause = s.ecause) ∧ (i ≠ .statRead → t.rsp = s.rsp) ∧
    ∀ (c : Word) (m : Memory) (v : ValFile) (r : Word),
      exec i { s with crc := c, buf := m, val := v, rsp := r } =
        .next { t with crc := c, buf := m, val := v, rsp := if i = .statRead then t.rsp else r }

/-- A set ERR does not block a command: whatever the error record holds, every command but the two that read or clear it
does the same, and leaves the record alone (60_exceptions.md R93). -/
def Obligations.ErrorRecordBlocksNoCommand : Prop :=
  (∀ (i : Instr) (s t : State) (e : Bool) (c : ECause), i ≠ .statRead → i ≠ .errClear → exec i s = .next t →
    exec i { s with err := e, ecause := c } = .next { t with err := e, ecause := c }) ∧
  (∀ (s : State) (e : Bool) (c : ECause), exec .errClear { s with err := e, ecause := c } = exec .errClear s) ∧
  (∀ (s : State) (e : Bool), s.ecause ≠ .reserved → ∃ t, exec .statRead { s with err := e } = .next t)

/-- ERR, once 1, is 0 again only by an accepted ERR_CLEAR or a reset edge (10_state.md R20). -/
def Obligations.ErrIsSticky : Prop :=
  (∀ s t : State, step s = .next t → s.err = true → t.err = false →
    resetPresented s ∨ presentedEdge s = ⟨false, true, 0x2100#16⟩) ∧
  (∀ (s : State) (w : Word) (rest : List PortEdge) (c : IllegalCause),
    s.hasReset = true → s.inputs = ⟨false, true, w⟩ :: rest → decode w = .illegal c →
    ∃ t, step s = .next t ∧ t.err = true)

/-- While ERR is 1, ECAUSE keeps the first cause over any run of edges with no reset and no ERR_CLEAR, illegal words
among them (60_exceptions.md R95). -/
def Obligations.FirstCauseIsKeptUntilCleared : Prop :=
  ∀ (n : Nat) (s t : State), s.err = true →
    (∀ e ∈ s.inputs, e.rst = false ∧ e ≠ ⟨false, true, 0x2100#16⟩) → runEdges n s = .next t →
    t.err = true ∧ t.ecause = s.ecause

/-- Only UNP_DECODE and UNP_CLEAR change DSTAT, and only ERR_CLEAR and illegal words change ERR and ECAUSE, reset apart
(10_state.md R26). -/
def Obligations.FlagsHaveTheirWriters : Prop :=
  ∀ s t : State, step s = .next t → ¬ resetPresented s →
    (t.dstat ≠ s.dstat → commandPresented s .unpDecode ∨ commandPresented s .unpClear) ∧
    (t.err ≠ s.err ∨ t.ecause ≠ s.ecause →
      commandPresented s .errClear ∨ ∃ w c, presentedEdge s = commandEdge w ∧ decode w = .illegal c)

/-! ### The whole machine -/

/-- CRC changes only by CRC_INIT, CRC_BYTE and reset (10_state.md R15). -/
def Obligations.CrcHasItsWriters : Prop :=
  ∀ s t : State, step s = .next t → t.crc ≠ s.crc →
    resetPresented s ∨ commandPresented s .crcInit ∨ ∃ b, commandPresented s (.crcByte b)

/-- VAL changes only by a successful UNP_DECODE and reset (10_state.md R18). -/
def Obligations.ValHasItsWriters : Prop :=
  ∀ s t : State, step s = .next t → t.val ≠ s.val →
    resetPresented s ∨ (commandPresented s .unpDecode ∧ t.dstat = .ok)

/-- RSP, and so the `rsp` port, changes only by CRC_READ, UNP_READ, STAT_READ and reset (10_state.md R23,
70_reset_and_hazards.md R116). -/
def Obligations.RspHasItsWriters : Prop :=
  ∀ s t : State, step s = .next t → rspPort t ≠ rspPort s →
    resetPresented s ∨ commandPresented s .crcRead ∨ commandPresented s .statRead ∨
      ∃ k, commandPresented s (.unpRead k)

/-- BUF changes only by UNP_PUSH, LEN only by UNP_PUSH and UNP_CLEAR, reset apart (10_state.md R12, 20_memory.md R34). -/
def Obligations.BufAndLenHaveTheirWriters : Prop :=
  ∀ s t : State, step s = .next t → ¬ resetPresented s →
    (t.buf ≠ s.buf → ∃ b, commandPresented s (.unpPush b)) ∧
    (t.len ≠ s.len → commandPresented s .unpClear ∨ ∃ b, commandPresented s (.unpPush b))

/-- Issued again at once, every command but CRC_BYTE and UNP_PUSH changes nothing more; and the three read commands
change only RSP (20_memory.md R44). -/
def Obligations.RepeatableCommandsAreIdempotent : Prop :=
  (∀ (i : Instr) (s t : State), (∀ b, i ≠ .crcByte b) → (∀ b, i ≠ .unpPush b) → exec i s = .next t →
    exec i t = .next t) ∧
  (∀ (i : Instr) (s t : State), i = .crcRead ∨ i = .statRead ∨ (∃ k, i = .unpRead k) → exec i s = .next t →
    t = { s with rsp := t.rsp })

/-- Until a decode succeeds, every VAL register holds its reset value: over any run from reset at whose every edge DSTAT
is not OK (41_unpack.md R84, 10_state.md R28). -/
def Obligations.ValIsZeroUntilADecodeSucceeds : Prop :=
  ∀ (edges : List PortEdge) (n : Nat) (t : State),
    runEdges n { State.reset with inputs := edges } = .next t →
    (∀ (m : Nat) (u : State), m ≤ n → runEdges m { State.reset with inputs := edges } = .next u → u.dstat ≠ .ok) →
    t.val = ⟨0x0000#16, 0x0000#16, 0x0000#16, 0x0000#16⟩

/-- The reset state meets the invariant (10_state.md R28, R29). -/
def Obligations.ResetMeetsTheInvariant : Prop :=
  State.reset.Inv

/-- Every edge keeps the invariant: BUF stays canonical and its first min(LEN, 11) cells written, ECAUSE stays legal and
NONE exactly while ERR is 0, and a DSTAT of OK or BAD_HEADER stays true of the buffered frame and of VAL
(20_memory.md R32, R34, R36; 10_state.md R21, R22). -/
def Obligations.EveryEdgeKeepsTheInvariant : Prop :=
  ∀ s t : State, s.Inv → step s = .next t → t.Inv

/-- A reset edge establishes the invariant from any state at all, the unspecified state after power-up among them
(70_reset_and_hazards.md R110, R111). -/
def Obligations.ResetEdgeEstablishesTheInvariant : Prop :=
  ∀ s : State, resetPresented s → ∃ t, step s = .next t ∧ t.Inv ∧ t.hasReset = true

/-- Once reset, the block never stops: from every state that meets the invariant, over any number of edges and whatever
the host presents, no fault and no refusal happens (10_state.md R29, 20_memory.md R36, 60_exceptions.md R93). -/
def Obligations.NoStopOnceReset : Prop :=
  ∀ (n : Nat) (s : State), s.Inv → s.hasReset = true →
    ∃ t, runEdges n s = .next t ∧ t.Inv ∧ t.hasReset = true

/-- The stops are the model's choice: the one refusal is of a command accepted before reset (log 5), and a fault comes only
from an accepted UNP_DECODE, on an unwritten cell (log 3), or an accepted STAT_READ, on the reserved cause (log 7). A
reset or idle edge never stops (70_reset_and_hazards.md R108, R110; 30_encoding.md R62). -/
def Obligations.OnlyAcceptedCommandsCanStop : Prop :=
  (∀ (s : State) (r : Refusal), step s = .refused r →
    r = .beforeReset ∧ s.hasReset = false ∧ (presentedEdge s).accepts = true) ∧
  (∀ (s : State) (f : Fault), step s = .fault f → s.hasReset = true ∧
    (presentedEdge s = ⟨false, true, 0x1200#16⟩ ∨ presentedEdge s = ⟨false, true, 0x2000#16⟩))

/-! ### Notation, and the host's side -/

/-- The rule's four examples, one with a comment, one with more spaces, and three lines more (30_encoding.md R60). That
the space before `;` in the CRC_BYTE line is skipped is the model's choice, and that a line of no form, the last two, gives
no words at all is the model's too (log 10). -/
def Obligations.AssemblerExamples : Prop :=
  assembleLine "CRC_INIT".toList = some [0x0100#16] ∧
  assembleLine "CRC_BYTE 0x03 ; a data byte".toList = some [0x0203#16] ∧
  assembleLine "UNP_PUSH   244".toList = some [0x11F4#16] ∧
  assembleLine "UNP_READ PH".toList = some [0x1303#16] ∧
  assembleLine ".word 0x2101".toList = some [0x2101#16] ∧
  assembleLine "UNP_READ 4".toList = none ∧
  assembleLine "NOP 0".toList = none

/-- The pseudo-instructions stand for the commands of their expansion, in order (30_encoding.md R61). In the clauses on text
it is the model's choice that a byte of a list is written as a byte operand and that the space beside a comma is skipped
(log 10). -/
def Obligations.PseudoInstructionsExpand : Prop :=
  (∀ bytes : List Byte, (crcMsg bytes).map encode = 0x0100#16 :: bytes.map (fun b => 0x02#8 ++ b)) ∧
  (∀ bytes : List Byte, (unpFrame bytes).map encode = 0x1000#16 :: bytes.map (fun b => 0x11#8 ++ b)) ∧
  unpReadAll.map encode = [0x1300#16, 0x1301#16, 0x1302#16, 0x1303#16] ∧
  assembleLine "CRC_MSG 0x01, 3".toList = some [0x0100#16, 0x0201#16, 0x0203#16] ∧
  assembleLine "UNP_FRAME".toList = some [0x1000#16] ∧
  assembleLine "UNP_READ_ALL".toList = some [0x1300#16, 0x1301#16, 0x1302#16, 0x1303#16]

/-- No decoded reading equals the sentinel, and a host that finds STAT[1:0] other than OK, or whose transport failed,
returns the sentinel (60_exceptions.md R105; the host's side, log 11). -/
def Obligations.SentinelIsNoReading : Prop :=
  (∀ v : ValFile, sensorReading v ≠ sentinel) ∧
  (∀ (failed : Bool) (stat : Word) (v : ValFile),
    hostResult failed stat v = sentinel ↔ failed = true ∨ stat.toNat % 4 ≠ 1)

/-- From any reset block, the host's response commands over any received bytes give the host the reading they carry if the
source's decode accepts them, else the sentinel. ECAUSE is not its reserved code (60_exceptions.md R103 to R105;
00_scope.md R5 leaves the host out of the block, log 11). -/
def Obligations.HostGetsTheReadingOrTheSentinel : Prop :=
  ∀ (s : State) (received : List Byte) (rest : List PortEdge),
    s.hasReset = true → s.ecause ≠ .reserved → s.inputs = commandEdges (responseCommands received) ++ rest →
    ∃ t, runEdges (received.length + 3) s = .next t ∧
      hostResult false (rspPort t) t.val =
        (match (frameOutcome received).2 with
          | some v => sensorReading v
          | none => sentinel)

/-- Step 1 and step 6 of the host's cycle, carried out with any reset block: the frame the host builds is the source's, and
the block is left with its CRC; UNP_READ_ALL is issued exactly if STAT[1:0] = OK, and the four words it shows on `rsp` are
VAL in the order humidity, temperature, EC, pH (60_exceptions.md R103; the host's side, log 11). -/
def Obligations.HostStepsOneAndSixUseTheBlock : Prop :=
  (∀ s : State, s.hasReset = true → requestPhase s =
    .next ([0x01#8, 0x03#8, 0x00#8, 0x00#8, 0x00#8, 0x04#8, 0x44#8, 0x09#8], { s with crc := 0x0944#16, rsp := 0x0944#16 })) ∧
  (∀ stat : Word, stat.toNat % 4 = 1 → readCommands stat = [.unpRead 0#2, .unpRead 1#2, .unpRead 2#2, .unpRead 3#2]) ∧
  (∀ stat : Word, stat.toNat % 4 ≠ 1 → readCommands stat = []) ∧
  (∀ s : State, s.hasReset = true → issue unpReadAll s =
    .next ([s.val.hum, s.val.temp, s.val.ec, s.val.ph], { s with rsp := s.val.ph })) ∧
  (∀ hum temp ec ph : Word, readValues [hum, temp, ec, ph] = some ⟨hum, temp, ec, ph⟩)

/-- The whole request/response cycle with any reset block completes, whatever the transport gives back for the request
frame: the host returns the reading those bytes carry, as it saw it on `rsp`, if the source's decode accepts them, and else
the sentinel; the block has recorded no error, and the edges still to come are left. ECAUSE is not its reserved code
(60_exceptions.md R102 to R105; that a host whose transport failed issues no more commands is the model's, log 11). -/
def Obligations.HostCycleReturnsTheReadingOrTheSentinel : Prop :=
  ∀ (s : State) (transport : List Byte → Option (List Byte)), s.hasReset = true → s.ecause ≠ .reserved →
    ∃ t, hostCycle transport s =
        .next
          (match transport [0x01#8, 0x03#8, 0x00#8, 0x00#8, 0x00#8, 0x04#8, 0x44#8, 0x09#8] with
            | none => sentinel
            | some received =>
              match (frameOutcome received).2 with
              | some v => sensorReading v
              | none => sentinel,
            t) ∧
      t.err = s.err ∧ t.ecause = s.ecause ∧ t.inputs = s.inputs
end

