-- ==== Sys2Proof/Laws/Decode.lean ====
section
/-! SUPPORT. A command word and its two fields: each is a number of the word, and the word is the two in a row. -/

namespace Sys2Proof

theorem opField_toNat (w : Word) : (opField w).toNat = w.toNat / 256 := by
  have := w.isLt
  simp [opField, BitVec.extractLsb'_toNat, Nat.shiftRight_eq_div_pow]
  omega

theorem immField_toNat (w : Word) : (immField w).toNat = w.toNat % 256 := by
  simp [immField, BitVec.extractLsb'_toNat]

/-- A word from two bytes, as a number. -/
theorem append_toNat (hi lo : Byte) : (hi ++ lo : Word).toNat = 256 * hi.toNat + lo.toNat := by
  have h := Nat.shiftLeft_add_eq_or_of_lt lo.isLt hi.toNat
  rw [Nat.shiftLeft_eq] at h
  rw [BitVec.toNat_append, Nat.shiftLeft_eq, ← h]
  omega

@[simp] theorem opField_append (op imm : Byte) : opField (op ++ imm) = op := by
  apply BitVec.eq_of_toNat_eq
  have := imm.isLt
  rw [opField_toNat, append_toNat]
  omega

@[simp] theorem immField_append (op imm : Byte) : immField (op ++ imm) = imm := by
  apply BitVec.eq_of_toNat_eq
  have := imm.isLt
  rw [immField_toNat, append_toNat]
  omega

theorem opField_append_immField (w : Word) : opField w ++ immField w = w := by
  apply BitVec.eq_of_toNat_eq
  rw [append_toNat, opField_toNat, immField_toNat]
  omega

/-! ### Decoding by OP (30_encoding.md R58) -/

theorem decode_op_nop {w : Word} (h : opField w = 0x00#8) : decode w = decodeZ (immField w) .nop := by simp [decode, h]
theorem decode_op_crcInit {w : Word} (h : opField w = 0x01#8) : decode w = decodeZ (immField w) .crcInit := by
  simp [decode, h]
theorem decode_op_crcByte {w : Word} (h : opField w = 0x02#8) : decode w = .cmd (.crcByte (immField w)) := by
  simp [decode, h]
theorem decode_op_crcRead {w : Word} (h : opField w = 0x03#8) : decode w = decodeZ (immField w) .crcRead := by
  simp [decode, h]
theorem decode_op_unpClear {w : Word} (h : opField w = 0x10#8) : decode w = decodeZ (immField w) .unpClear := by
  simp [decode, h]
theorem decode_op_unpPush {w : Word} (h : opField w = 0x11#8) : decode w = .cmd (.unpPush (immField w)) := by
  simp [decode, h]
theorem decode_op_unpDecode {w : Word} (h : opField w = 0x12#8) : decode w = decodeZ (immField w) .unpDecode := by
  simp [decode, h]
theorem decode_op_unpRead {w : Word} (h : opField w = 0x13#8) : decode w = decodeI (immField w) .unpRead := by
  simp [decode, h]
theorem decode_op_statRead {w : Word} (h : opField w = 0x20#8) : decode w = decodeZ (immField w) .statRead := by
  simp [decode, h]
theorem decode_op_errClear {w : Word} (h : opField w = 0x21#8) : decode w = decodeZ (immField w) .errClear := by
  simp [decode, h]

/-- The defined OP values (30_encoding.md R56). -/
abbrev definedOps : List Byte :=
  [0x00#8, 0x01#8, 0x02#8, 0x03#8, 0x10#8, 0x11#8, 0x12#8, 0x13#8, 0x20#8, 0x21#8]

theorem decode_op_undefined {w : Word} (h : opField w ∉ definedOps) : decode w = .illegal .undefinedOpcode := by
  simp only [List.mem_cons, List.not_mem_nil, or_false, not_or] at h
  simp [decode, h]

theorem decodeZ_zero (i : Instr) : decodeZ 0x00#8 i = .cmd i := rfl

theorem decodeZ_nonzero {imm : Byte} (h : imm ≠ 0x00#8) (i : Instr) : decodeZ imm i = .illegal .badOperand := by
  simp [decodeZ, h]

/-- The upper six bits of an IMM8 are 0 exactly when it is at most 3. -/
theorem upper_six_zero_iff (imm : Byte) : imm.extractLsb' 2 6 = 0#6 ↔ imm.toNat ≤ 3 := by
  revert imm; decide

theorem decodeI_le {imm : Byte} (h : imm.toNat ≤ 3) (mk : BitVec 2 → Instr) :
    decodeI imm mk = .cmd (mk (imm.extractLsb' 0 2)) := by
  rw [decodeI, if_pos ((upper_six_zero_iff imm).mpr h)]

theorem decodeI_gt {imm : Byte} (h : 3 < imm.toNat) (mk : BitVec 2 → Instr) :
    decodeI imm mk = .illegal .badOperand := by
  rw [decodeI, if_neg (fun e => by have := (upper_six_zero_iff imm).mp e; omega)]

end Sys2Proof
end

