-- ==== Sys2Proof/Laws/State.lean ====
section
/-! SUPPORT. One lemma per field per register write, so that no proof unfolds a record update. -/

namespace Sys2Proof.Machine

@[simp] theorem State.setCrc_crc (s : State) (v : Word) : (s.setCrc v).crc = v := rfl
@[simp] theorem State.setCrc_buf (s : State) (v : Word) : (s.setCrc v).buf = s.buf := rfl
@[simp] theorem State.setCrc_len (s : State) (v : Word) : (s.setCrc v).len = s.len := rfl
@[simp] theorem State.setCrc_val (s : State) (v : Word) : (s.setCrc v).val = s.val := rfl
@[simp] theorem State.setCrc_dstat (s : State) (v : Word) : (s.setCrc v).dstat = s.dstat := rfl
@[simp] theorem State.setCrc_err (s : State) (v : Word) : (s.setCrc v).err = s.err := rfl
@[simp] theorem State.setCrc_ecause (s : State) (v : Word) : (s.setCrc v).ecause = s.ecause := rfl
@[simp] theorem State.setCrc_rsp (s : State) (v : Word) : (s.setCrc v).rsp = s.rsp := rfl
@[simp] theorem State.setCrc_hasReset (s : State) (v : Word) : (s.setCrc v).hasReset = s.hasReset := rfl
@[simp] theorem State.setCrc_inputs (s : State) (v : Word) : (s.setCrc v).inputs = s.inputs := rfl

@[simp] theorem State.setBuf_crc (s : State) (v : Memory) : (s.setBuf v).crc = s.crc := rfl
@[simp] theorem State.setBuf_buf (s : State) (v : Memory) : (s.setBuf v).buf = v := rfl
@[simp] theorem State.setBuf_len (s : State) (v : Memory) : (s.setBuf v).len = s.len := rfl
@[simp] theorem State.setBuf_val (s : State) (v : Memory) : (s.setBuf v).val = s.val := rfl
@[simp] theorem State.setBuf_dstat (s : State) (v : Memory) : (s.setBuf v).dstat = s.dstat := rfl
@[simp] theorem State.setBuf_err (s : State) (v : Memory) : (s.setBuf v).err = s.err := rfl
@[simp] theorem State.setBuf_ecause (s : State) (v : Memory) : (s.setBuf v).ecause = s.ecause := rfl
@[simp] theorem State.setBuf_rsp (s : State) (v : Memory) : (s.setBuf v).rsp = s.rsp := rfl
@[simp] theorem State.setBuf_hasReset (s : State) (v : Memory) : (s.setBuf v).hasReset = s.hasReset := rfl
@[simp] theorem State.setBuf_inputs (s : State) (v : Memory) : (s.setBuf v).inputs = s.inputs := rfl

@[simp] theorem State.setLen_crc (s : State) (v : Byte) : (s.setLen v).crc = s.crc := rfl
@[simp] theorem State.setLen_buf (s : State) (v : Byte) : (s.setLen v).buf = s.buf := rfl
@[simp] theorem State.setLen_len (s : State) (v : Byte) : (s.setLen v).len = v := rfl
@[simp] theorem State.setLen_val (s : State) (v : Byte) : (s.setLen v).val = s.val := rfl
@[simp] theorem State.setLen_dstat (s : State) (v : Byte) : (s.setLen v).dstat = s.dstat := rfl
@[simp] theorem State.setLen_err (s : State) (v : Byte) : (s.setLen v).err = s.err := rfl
@[simp] theorem State.setLen_ecause (s : State) (v : Byte) : (s.setLen v).ecause = s.ecause := rfl
@[simp] theorem State.setLen_rsp (s : State) (v : Byte) : (s.setLen v).rsp = s.rsp := rfl
@[simp] theorem State.setLen_hasReset (s : State) (v : Byte) : (s.setLen v).hasReset = s.hasReset := rfl
@[simp] theorem State.setLen_inputs (s : State) (v : Byte) : (s.setLen v).inputs = s.inputs := rfl

@[simp] theorem State.setVal_crc (s : State) (v : ValFile) : (s.setVal v).crc = s.crc := rfl
@[simp] theorem State.setVal_buf (s : State) (v : ValFile) : (s.setVal v).buf = s.buf := rfl
@[simp] theorem State.setVal_len (s : State) (v : ValFile) : (s.setVal v).len = s.len := rfl
@[simp] theorem State.setVal_val (s : State) (v : ValFile) : (s.setVal v).val = v := rfl
@[simp] theorem State.setVal_dstat (s : State) (v : ValFile) : (s.setVal v).dstat = s.dstat := rfl
@[simp] theorem State.setVal_err (s : State) (v : ValFile) : (s.setVal v).err = s.err := rfl
@[simp] theorem State.setVal_ecause (s : State) (v : ValFile) : (s.setVal v).ecause = s.ecause := rfl
@[simp] theorem State.setVal_rsp (s : State) (v : ValFile) : (s.setVal v).rsp = s.rsp := rfl
@[simp] theorem State.setVal_hasReset (s : State) (v : ValFile) : (s.setVal v).hasReset = s.hasReset := rfl
@[simp] theorem State.setVal_inputs (s : State) (v : ValFile) : (s.setVal v).inputs = s.inputs := rfl

@[simp] theorem State.setDstat_crc (s : State) (v : DStat) : (s.setDstat v).crc = s.crc := rfl
@[simp] theorem State.setDstat_buf (s : State) (v : DStat) : (s.setDstat v).buf = s.buf := rfl
@[simp] theorem State.setDstat_len (s : State) (v : DStat) : (s.setDstat v).len = s.len := rfl
@[simp] theorem State.setDstat_val (s : State) (v : DStat) : (s.setDstat v).val = s.val := rfl
@[simp] theorem State.setDstat_dstat (s : State) (v : DStat) : (s.setDstat v).dstat = v := rfl
@[simp] theorem State.setDstat_err (s : State) (v : DStat) : (s.setDstat v).err = s.err := rfl
@[simp] theorem State.setDstat_ecause (s : State) (v : DStat) : (s.setDstat v).ecause = s.ecause := rfl
@[simp] theorem State.setDstat_rsp (s : State) (v : DStat) : (s.setDstat v).rsp = s.rsp := rfl
@[simp] theorem State.setDstat_hasReset (s : State) (v : DStat) : (s.setDstat v).hasReset = s.hasReset := rfl
@[simp] theorem State.setDstat_inputs (s : State) (v : DStat) : (s.setDstat v).inputs = s.inputs := rfl

@[simp] theorem State.setErr_crc (s : State) (v : Bool) : (s.setErr v).crc = s.crc := rfl
@[simp] theorem State.setErr_buf (s : State) (v : Bool) : (s.setErr v).buf = s.buf := rfl
@[simp] theorem State.setErr_len (s : State) (v : Bool) : (s.setErr v).len = s.len := rfl
@[simp] theorem State.setErr_val (s : State) (v : Bool) : (s.setErr v).val = s.val := rfl
@[simp] theorem State.setErr_dstat (s : State) (v : Bool) : (s.setErr v).dstat = s.dstat := rfl
@[simp] theorem State.setErr_err (s : State) (v : Bool) : (s.setErr v).err = v := rfl
@[simp] theorem State.setErr_ecause (s : State) (v : Bool) : (s.setErr v).ecause = s.ecause := rfl
@[simp] theorem State.setErr_rsp (s : State) (v : Bool) : (s.setErr v).rsp = s.rsp := rfl
@[simp] theorem State.setErr_hasReset (s : State) (v : Bool) : (s.setErr v).hasReset = s.hasReset := rfl
@[simp] theorem State.setErr_inputs (s : State) (v : Bool) : (s.setErr v).inputs = s.inputs := rfl

@[simp] theorem State.setEcause_crc (s : State) (v : ECause) : (s.setEcause v).crc = s.crc := rfl
@[simp] theorem State.setEcause_buf (s : State) (v : ECause) : (s.setEcause v).buf = s.buf := rfl
@[simp] theorem State.setEcause_len (s : State) (v : ECause) : (s.setEcause v).len = s.len := rfl
@[simp] theorem State.setEcause_val (s : State) (v : ECause) : (s.setEcause v).val = s.val := rfl
@[simp] theorem State.setEcause_dstat (s : State) (v : ECause) : (s.setEcause v).dstat = s.dstat := rfl
@[simp] theorem State.setEcause_err (s : State) (v : ECause) : (s.setEcause v).err = s.err := rfl
@[simp] theorem State.setEcause_ecause (s : State) (v : ECause) : (s.setEcause v).ecause = v := rfl
@[simp] theorem State.setEcause_rsp (s : State) (v : ECause) : (s.setEcause v).rsp = s.rsp := rfl
@[simp] theorem State.setEcause_hasReset (s : State) (v : ECause) : (s.setEcause v).hasReset = s.hasReset := rfl
@[simp] theorem State.setEcause_inputs (s : State) (v : ECause) : (s.setEcause v).inputs = s.inputs := rfl

@[simp] theorem State.setRsp_crc (s : State) (v : Word) : (s.setRsp v).crc = s.crc := rfl
@[simp] theorem State.setRsp_buf (s : State) (v : Word) : (s.setRsp v).buf = s.buf := rfl
@[simp] theorem State.setRsp_len (s : State) (v : Word) : (s.setRsp v).len = s.len := rfl
@[simp] theorem State.setRsp_val (s : State) (v : Word) : (s.setRsp v).val = s.val := rfl
@[simp] theorem State.setRsp_dstat (s : State) (v : Word) : (s.setRsp v).dstat = s.dstat := rfl
@[simp] theorem State.setRsp_err (s : State) (v : Word) : (s.setRsp v).err = s.err := rfl
@[simp] theorem State.setRsp_ecause (s : State) (v : Word) : (s.setRsp v).ecause = s.ecause := rfl
@[simp] theorem State.setRsp_rsp (s : State) (v : Word) : (s.setRsp v).rsp = v := rfl
@[simp] theorem State.setRsp_hasReset (s : State) (v : Word) : (s.setRsp v).hasReset = s.hasReset := rfl
@[simp] theorem State.setRsp_inputs (s : State) (v : Word) : (s.setRsp v).inputs = s.inputs := rfl

@[simp] theorem State.setInputs_crc (s : State) (v : List PortEdge) : (s.setInputs v).crc = s.crc := rfl
@[simp] theorem State.setInputs_buf (s : State) (v : List PortEdge) : (s.setInputs v).buf = s.buf := rfl
@[simp] theorem State.setInputs_len (s : State) (v : List PortEdge) : (s.setInputs v).len = s.len := rfl
@[simp] theorem State.setInputs_val (s : State) (v : List PortEdge) : (s.setInputs v).val = s.val := rfl
@[simp] theorem State.setInputs_dstat (s : State) (v : List PortEdge) : (s.setInputs v).dstat = s.dstat := rfl
@[simp] theorem State.setInputs_err (s : State) (v : List PortEdge) : (s.setInputs v).err = s.err := rfl
@[simp] theorem State.setInputs_ecause (s : State) (v : List PortEdge) : (s.setInputs v).ecause = s.ecause := rfl
@[simp] theorem State.setInputs_rsp (s : State) (v : List PortEdge) : (s.setInputs v).rsp = s.rsp := rfl
@[simp] theorem State.setInputs_hasReset (s : State) (v : List PortEdge) : (s.setInputs v).hasReset = s.hasReset := rfl
@[simp] theorem State.setInputs_inputs (s : State) (v : List PortEdge) : (s.setInputs v).inputs = v := rfl

/-! ### Reset values (10_state.md R28) -/

@[simp] theorem State.reset_crc : State.reset.crc = 0xFFFF#16 := rfl
@[simp] theorem State.reset_buf : State.reset.buf = [] := rfl
@[simp] theorem State.reset_len : State.reset.len = 0#8 := rfl
@[simp] theorem State.reset_dstat : State.reset.dstat = .none := rfl
@[simp] theorem State.reset_err : State.reset.err = false := rfl
@[simp] theorem State.reset_ecause : State.reset.ecause = .none := rfl
@[simp] theorem State.reset_rsp : State.reset.rsp = 0#16 := rfl
@[simp] theorem State.reset_hasReset : State.reset.hasReset = true := rfl
@[simp] theorem State.reset_inputs : State.reset.inputs = [] := rfl
@[simp] theorem State.reset_val : State.reset.val = ⟨0#16, 0#16, 0#16, 0#16⟩ := rfl

end Sys2Proof.Machine
end

