-- ==== Sys2Proof/Laws/Memory.lean ====
section
/-! SUPPORT. The laws of the response buffer: read after write, the canonical form kept, and what `memRead` and
`memWrite` answer. -/

namespace Sys2Proof.Machine

@[simp] theorem Memory.read_nil (k : Nat) : Memory.read [] k = none := rfl

theorem Memory.read_write_same (m : Memory) (k : Nat) (v : Byte) :
    Memory.read (Memory.write m k v) k = some v := by
  induction m with
  | nil => simp [Memory.write, Memory.read]
  | cons c m ih =>
    obtain ⟨a, b⟩ := c
    unfold Memory.write
    split
    · simp [Memory.read]
    · split
      · simp [Memory.read]
      · simp [Memory.read, ih]
        omega

theorem Memory.read_write_other (m : Memory) {k j : Nat} (v : Byte) (h : j ≠ k) :
    Memory.read (Memory.write m k v) j = Memory.read m j := by
  induction m with
  | nil => simp [Memory.write, Memory.read, h.symm]
  | cons c m ih =>
    obtain ⟨a, b⟩ := c
    unfold Memory.write
    split
    · simp [Memory.read, h.symm]
    · split
      · subst_vars; simp [Memory.read, h.symm]
      · simp [Memory.read, ih]

/-- A cell of `write m k v` is the new one or one of `m`. -/
theorem Memory.mem_write {m : Memory} {k : Nat} {v : Byte} {c : Host.Cell} (h : c ∈ Memory.write m k v) :
    c = (k, v) ∨ c ∈ m := by
  induction m with
  | nil => simpa [Memory.write] using h
  | cons d m ih =>
    obtain ⟨a, b⟩ := d
    unfold Memory.write at h
    split at h
    · simpa using h
    · split at h
      · rcases List.mem_cons.mp h with h | h
        · exact .inl h
        · exact .inr (List.mem_cons_of_mem _ h)
      · rcases List.mem_cons.mp h with h | h
        · exact .inr (h ▸ List.mem_cons_self)
        · exact (ih h).imp id (List.mem_cons_of_mem _)

theorem Memory.wf_nil : Memory.wf [] := ⟨List.Pairwise.nil, by simp⟩

/-- Every write to a cell that exists keeps the canonical form. -/
theorem Memory.wf_write {m : Memory} {k : Nat} (v : Byte) (hk : k < Config.bufDepth) (h : Memory.wf m) :
    Memory.wf (Memory.write m k v) := by
  refine ⟨?_, fun c hc => ?_⟩
  · have hp := h.1
    clear h
    induction m with
    | nil => simp [Memory.write]
    | cons d m ih =>
      obtain ⟨a, b⟩ := d
      obtain ⟨ha, hm⟩ := List.pairwise_cons.mp hp
      unfold Memory.write
      split
      · rename_i hlt
        refine List.pairwise_cons.mpr ⟨fun c hc => ?_, hp⟩
        rcases List.mem_cons.mp hc with rfl | hc
        · exact hlt
        · exact Nat.lt_trans hlt (ha c hc)
      · split
        · subst_vars
          exact List.pairwise_cons.mpr ⟨ha, hm⟩
        · refine List.pairwise_cons.mpr ⟨fun c hc => ?_, ih hm⟩
          rcases Memory.mem_write hc with rfl | hc
          · simp only; omega
          · exact ha c hc
  · rcases Memory.mem_write hc with rfl | hc
    · exact hk
    · exact h.2 c hc

/-! ### `memRead` and `memWrite` -/

theorem memRead_ok_iff {s : State} {k : Nat} {b : Byte} :
    memRead s k = .ok b ↔ k < Config.bufDepth ∧ Memory.read s.buf k = some b := by
  unfold memRead
  split
  · split <;> simp_all
  · simp_all

theorem memRead_of_read {s : State} {k : Nat} {b : Byte} (hk : k < 11) (h : Memory.read s.buf k = some b) :
    memRead s k = .ok b := memRead_ok_iff.mpr ⟨hk, h⟩

theorem memRead_of_unwritten {s : State} {k : Nat} (hk : k < 11) (h : Memory.read s.buf k = none) :
    memRead s k = .error (.unwrittenCell k) := by
  rw [memRead, if_pos (show k < Config.bufDepth from hk), h]

/-- Reading BUF depends on BUF alone. -/
theorem memRead_congr {s t : State} (h : t.buf = s.buf) (k : Nat) : memRead t k = memRead s k := by
  simp [memRead, h]

theorem memWrite_of_lt {s : State} {k : Nat} (v : Byte) (hk : k < 11) :
    memWrite s k v = .ok (s.setBuf (Memory.write s.buf k v)) := if_pos hk

/-- The operands and the validation of a decode depend on BUF and LEN alone. -/
theorem frameValues_congr {s t : State} (h : t.buf = s.buf) : frameValues t = frameValues s := by
  simp [frameValues, frameRegister, memRead_congr h]

theorem validate_congr {s t : State} (h : t.buf = s.buf) (hl : t.len = s.len) : validate t = validate s := by
  simp [validate, memRead_congr h, hl]

theorem validate_of_short {s : State} (h : s.len.toNat < 11) : validate s = .ok .incomplete :=
  if_pos (show s.len.toNat < Config.minLen from h)

theorem headerMatches_iff (addr func count : Byte) :
    headerMatches addr func count = true ↔ addr = 0x01#8 ∧ func = 0x03#8 ∧ count = 0x08#8 := by
  simp [headerMatches, Config.expAddr, Config.expFunc, Config.expByteCount, and_assoc]

/-- What a validation of a long enough frame answers, its header cells written (41_unpack.md R71). -/
theorem validate_of_header {s : State} {addr func count : Byte} (hl : 11 ≤ s.len.toNat)
    (h0 : Memory.read s.buf 0 = some addr) (h1 : Memory.read s.buf 1 = some func)
    (h2 : Memory.read s.buf 2 = some count) :
    validate s = .ok (if headerMatches addr func count then .ok else .badHeader) := by
  have h : ¬ s.len.toNat < Config.minLen := by
    show ¬ s.len.toNat < 11
    omega
  rw [validate, if_neg h, memRead_of_read (by decide) h0, memRead_of_read (by decide) h1,
    memRead_of_read (by decide) h2]
  rfl

/-- A validation answers one of the three outcomes. -/
theorem validate_ok_cases {s : State} {d : DStat} (h : validate s = .ok d) :
    (d = .incomplete ∧ s.len.toNat < 11) ∨ (11 ≤ s.len.toNat ∧ (d = .ok ∨ d = .badHeader)) := by
  by_cases hl : s.len.toNat < 11
  · rw [validate, if_pos (show s.len.toNat < Config.minLen from hl)] at h
    exact .inl ⟨by simpa using h.symm, hl⟩
  · rw [validate, if_neg (show ¬ s.len.toNat < Config.minLen from hl)] at h
    refine .inr ⟨by omega, ?_⟩
    cases h0 : memRead s 0 <;> cases h1 : memRead s 1 <;> cases h2 : memRead s 2 <;>
      simp [h0, h1, h2, bind, Except.bind, pure, Except.pure] at h
    rename_i a f c
    cases hm : headerMatches a f c <;> simp [hm] at h <;> simp [← h]

end Sys2Proof.Machine
end

