-- ==== Sys2Proof/Laws/Ops.lean ====
section
/-! SUPPORT. What the shared operations do: recording an error, acknowledging it, reset, the LEN increment, the index
a push stores to, and continuing after an operation that may fault. -/

namespace Sys2Proof.Machine

theorem orFault_next {α : Type} {r : Except Fault α} {k : α → Result} {t : State} (h : orFault r k = .next t) :
    ∃ a, r = .ok a ∧ k a = .next t := by
  cases r with
  | ok a => exact ⟨a, rfl, h⟩
  | error f => simp [orFault] at h

@[simp] theorem orFault_ok {α : Type} (a : α) (k : α → Result) : orFault (.ok a) k = k a := rfl

/-! ### `raiseCmdError` (60_exceptions.md R90) -/

theorem raiseCmdError_eq (c : IllegalCause) (s : State) :
    raiseCmdError c s =
      { s with err := true, ecause := if s.err = false then causeCode c else s.ecause } := by
  unfold raiseCmdError
  cases h : s.err <;> simp [State.setEcause, State.setErr]

@[simp] theorem raiseCmdError_crc (c : IllegalCause) (s : State) : (raiseCmdError c s).crc = s.crc := by
  simp [raiseCmdError_eq]
@[simp] theorem raiseCmdError_buf (c : IllegalCause) (s : State) : (raiseCmdError c s).buf = s.buf := by
  simp [raiseCmdError_eq]
@[simp] theorem raiseCmdError_len (c : IllegalCause) (s : State) : (raiseCmdError c s).len = s.len := by
  simp [raiseCmdError_eq]
@[simp] theorem raiseCmdError_val (c : IllegalCause) (s : State) : (raiseCmdError c s).val = s.val := by
  simp [raiseCmdError_eq]
@[simp] theorem raiseCmdError_dstat (c : IllegalCause) (s : State) : (raiseCmdError c s).dstat = s.dstat := by
  simp [raiseCmdError_eq]
@[simp] theorem raiseCmdError_err (c : IllegalCause) (s : State) : (raiseCmdError c s).err = true := by
  simp [raiseCmdError_eq]
theorem raiseCmdError_ecause (c : IllegalCause) (s : State) :
    (raiseCmdError c s).ecause = if s.err = false then causeCode c else s.ecause := by
  simp [raiseCmdError_eq]
@[simp] theorem raiseCmdError_rsp (c : IllegalCause) (s : State) : (raiseCmdError c s).rsp = s.rsp := by
  simp [raiseCmdError_eq]
@[simp] theorem raiseCmdError_hasReset (c : IllegalCause) (s : State) :
    (raiseCmdError c s).hasReset = s.hasReset := by simp [raiseCmdError_eq]
@[simp] theorem raiseCmdError_inputs (c : IllegalCause) (s : State) : (raiseCmdError c s).inputs = s.inputs := by
  simp [raiseCmdError_eq]

/-! ### Acknowledging an error, and reset -/

@[simp] theorem clearErrorRecord_eq (s : State) : clearErrorRecord s = { s with err := false, ecause := .none } := rfl

@[simp] theorem applyReset_eq (s : State) : applyReset s = { State.reset with inputs := s.inputs } := rfl

@[simp] theorem passEdge_eq (s : State) : s.setInputs s.inputs.tail = { s with inputs := s.inputs.tail } := rfl

/-! ### LEN -/

theorem satInc_toNat (n : Byte) : (satInc n).toNat = min (n.toNat + 1) 255 := by
  have hn := n.isLt
  unfold satInc
  split
  · subst_vars; rfl
  · rename_i h
    have : n.toNat ≠ 255 := fun e => h (BitVec.eq_of_toNat_eq e)
    rw [BitVec.toNat_add]
    simp only [BitVec.toNat_ofNat]
    omega

theorem pushIndex_some {s : State} {k : Nat} (h : pushIndex s = some k) : k = s.len.toNat ∧ k ≤ 10 := by
  unfold pushIndex at h
  split at h
  · simp only [Option.some.injEq] at h; omega
  · simp at h

theorem pushIndex_none {s : State} (h : pushIndex s = none) : 11 ≤ s.len.toNat := by
  unfold pushIndex at h
  split at h
  · simp at h
  · omega

theorem causeCode_legal (c : IllegalCause) : causeCode c = .undefinedOpcode ∨ causeCode c = .badOperand := by
  cases c <;> simp [causeCode]

end Sys2Proof.Machine
end

