-- ==== Sys2Proof/Laws/Exec.lean ====
section
/-! SUPPORT. One lemma per meaning that can do more than one thing, saying everything it does when it answers a next
state; and the inversion lemmas of a step, which say once what an edge can do. -/

namespace Sys2Proof.Machine

/-- Everything a push does: it completes, stores at `pushIndex` if there is one, and counts. -/
theorem execUnpPush_eq (b : Byte) (s : State) :
    execUnpPush b s = .next
      { s with
        buf := match pushIndex s with
          | some k => Memory.write s.buf k b
          | none => s.buf
        len := satInc s.len } := by
  unfold execUnpPush
  cases h : pushIndex s with
  | none => rfl
  | some k =>
    have hk : k < 11 := by have := (pushIndex_some h).2; omega
    simp only [memWrite_of_lt b hk, orFault_ok]
    rfl

/-- Everything a decode that completes does (41_unpack.md R78). -/
theorem execUnpDecode_next {s t : State} (h : execUnpDecode s = .next t) :
    (∃ v, validate s = .ok .ok ∧ frameValues s = .ok v ∧ t = { s with dstat := .ok, val := v }) ∨
    (∃ d, d ≠ .ok ∧ d ≠ .none ∧ validate s = .ok d ∧ t = { s with dstat := d }) := by
  obtain ⟨d, hd, h⟩ := orFault_next h
  cases d with
  | ok =>
    obtain ⟨v, hv, h⟩ := orFault_next h
    refine .inl ⟨v, hd, hv, ?_⟩
    simpa [State.setVal, State.setDstat] using h.symm
  | none => simpa using validate_ok_cases hd
  | incomplete => exact .inr ⟨_, by simp, by simp, hd, by simpa [State.setDstat] using h.symm⟩
  | badHeader => exact .inr ⟨_, by simp, by simp, hd, by simpa [State.setDstat] using h.symm⟩

/-- A status read completes unless ECAUSE holds its reserved code (42_control.md R87; log 7). -/
theorem execStatRead_eq {s : State} (hc : s.ecause ≠ .reserved) : execStatRead s = .next { s with rsp := statWord s } := by
  unfold execStatRead
  split
  · contradiction
  · rfl

/-- Everything a status read that completes does (42_control.md R87). -/
theorem execStatRead_next {s t : State} (h : execStatRead s = .next t) :
    s.ecause ≠ .reserved ∧ t = { s with rsp := statWord s } := by
  unfold execStatRead at h
  cases hc : s.ecause <;> simp [hc, State.setRsp] at h <;> simp [← h]

/-- No meaning refuses. -/
theorem exec_not_refused (i : Instr) (s : State) (r : Refusal) : exec i s ≠ .refused r := by
  cases i with
  | unpPush b => simp [exec, execUnpPush_eq]
  | unpDecode =>
    simp only [exec, execUnpDecode, orFault]
    split
    · split
      · split <;> simp
      · simp
    · simp
  | statRead => simp only [exec, execStatRead]; split <;> simp
  | _ => simp [exec, execNop, execCrcInit, execCrcByte, execCrcRead, execUnpClear, execUnpRead, execErrClear]

/-- Everything a command that completes can do, command by command. -/
theorem exec_next {i : Instr} {s t : State} (h : exec i s = .next t) :
    match i with
    | .nop => t = s
    | .crcInit => t = { s with crc := Config.crcInit }
    | .crcByte b => t = { s with crc := crcUpdate s.crc b }
    | .crcRead => t = { s with rsp := s.crc }
    | .unpClear => t = { s with len := 0x00#8, dstat := .none }
    | .unpPush b => t = { s with
        buf := match pushIndex s with
          | some k => Memory.write s.buf k b
          | none => s.buf
        len := satInc s.len }
    | .unpDecode =>
      (∃ v, validate s = .ok .ok ∧ frameValues s = .ok v ∧ t = { s with dstat := .ok, val := v }) ∨
      (∃ d, d ≠ .ok ∧ d ≠ .none ∧ validate s = .ok d ∧ t = { s with dstat := d })
    | .unpRead k => t = { s with rsp := valAt s.val k }
    | .statRead => s.ecause ≠ .reserved ∧ t = { s with rsp := statWord s }
    | .errClear => t = { s with err := false, ecause := .none } := by
  cases i with
  | unpDecode => exact execUnpDecode_next h
  | statRead => exact execStatRead_next h
  | unpPush b => simpa [exec, execUnpPush_eq] using h.symm
  | nop => simpa [exec, execNop] using h.symm
  | crcInit => simpa [exec, execCrcInit, State.setCrc] using h.symm
  | crcByte b => simpa [exec, execCrcByte, State.setCrc] using h.symm
  | crcRead => simpa [exec, execCrcRead, State.setRsp] using h.symm
  | unpClear => simpa [exec, execUnpClear, State.setLen, State.setDstat] using h.symm
  | unpRead k => simpa [exec, execUnpRead, State.setRsp] using h.symm
  | errClear => simpa [exec, execErrClear] using h.symm

/-- Everything an edge that gives a next state can do: reset, idle, run a command, or record an error. -/
theorem step_next {s t : State} (h : step s = .next t) :
    ((presentedEdge s).rst = true ∧ t = { State.reset with inputs := s.inputs.tail }) ∨
    ((presentedEdge s).rst = false ∧ (presentedEdge s).cmdValid = false ∧ t = { s with inputs := s.inputs.tail }) ∨
    ((presentedEdge s).rst = false ∧ (presentedEdge s).cmdValid = true ∧ s.hasReset = true ∧
      ∃ i, decode (presentedEdge s).cmd = .cmd i ∧ exec i { s with inputs := s.inputs.tail } = .next t) ∨
    ((presentedEdge s).rst = false ∧ (presentedEdge s).cmdValid = true ∧ s.hasReset = true ∧
      ∃ c, decode (presentedEdge s).cmd = .illegal c ∧ t = raiseCmdError c { s with inputs := s.inputs.tail }) := by
  unfold step clockEdge at h
  cases hr : (presentedEdge s).rst with
  | true =>
    refine .inl ⟨rfl, ?_⟩
    simpa [hr, passEdge] using h.symm
  | false =>
    cases hv : (presentedEdge s).cmdValid with
    | false => exact .inr (.inl ⟨rfl, rfl, by simpa [hr, hv, passEdge] using h.symm⟩)
    | true =>
      cases hs : s.hasReset with
      | false => simp [hr, hv, acceptWord, passEdge, hs] at h
      | true =>
        simp only [hr, hv, acceptWord, passEdge, State.setInputs, hs, Bool.false_eq_true, if_false, if_true] at h
        cases hd : decode (presentedEdge s).cmd with
        | cmd i => exact .inr (.inr (.inl ⟨rfl, rfl, rfl, i, rfl, by simpa [hd, hs] using h⟩))
        | illegal c =>
          refine .inr (.inr (.inr ⟨rfl, rfl, rfl, c, rfl, ?_⟩))
          simp only [hd, Host.Outcome.next.injEq] at h
          rw [← h]

@[simp] theorem presentedEdge_nil {s : State} (h : s.inputs = []) : presentedEdge s = idleEdge := by
  simp [presentedEdge, h]

@[simp] theorem presentedEdge_cons {s : State} {e : PortEdge} {rest : List PortEdge} (h : s.inputs = e :: rest) :
    presentedEdge s = e := by simp [presentedEdge, h]

@[simp] theorem commandEdge_cmd (w : Word) : (commandEdge w).cmd = w := rfl
@[simp] theorem commandEdge_rst (w : Word) : (commandEdge w).rst = false := rfl
@[simp] theorem commandEdge_cmdValid (w : Word) : (commandEdge w).cmdValid = true := rfl

end Sys2Proof.Machine
end

