-- ==== Sys2Proof/Laws/Run.lean ====
section
/-! SUPPORT. A step by the edge it takes, the edge by its pins, and a run edge by edge. -/

namespace Sys2Proof.Machine

theorem step_cons {s : State} {e : PortEdge} {rest : List PortEdge} (h : s.inputs = e :: rest) :
    step s = clockEdge e { s with inputs := rest } := by
  rw [step, presentedEdge_cons h]
  simp [passEdge, State.setInputs, h]

theorem clockEdge_reset (valid : Bool) (cmd : Word) (s : State) :
    clockEdge ⟨true, valid, cmd⟩ s = .next { State.reset with inputs := s.inputs } := rfl

theorem clockEdge_idle (cmd : Word) (s : State) : clockEdge ⟨false, false, cmd⟩ s = .next s := rfl

theorem clockEdge_accept (cmd : Word) (s : State) : clockEdge ⟨false, true, cmd⟩ s = acceptWord cmd s := rfl

/-- A command on a block that has been reset, at the state whose pending edges are `rest`. -/
theorem acceptWord_cmd {w : Word} {i : Instr} {s : State} {rest : List PortEdge} (hs : s.hasReset = true)
    (hd : decode w = .cmd i) : acceptWord w { s with inputs := rest } = exec i { s with inputs := rest } := by
  simp [acceptWord, hs, hd]

theorem acceptWord_illegal {w : Word} {c : IllegalCause} {s : State} {rest : List PortEdge} (hs : s.hasReset = true)
    (hd : decode w = .illegal c) :
    acceptWord w { s with inputs := rest } = .next (raiseCmdError c { s with inputs := rest }) := by
  simp [acceptWord, hs, hd]

@[simp] theorem runEdges_zero (s : State) : runEdges 0 s = .next s := rfl

theorem runEdges_succ (n : Nat) (s : State) :
    runEdges (n + 1) s = match step s with
      | .next t => runEdges n t
      | .fault f => .fault f
      | .refused r => .refused r := by
  have hc : Sys2Proof.core.step s = step s := rfl
  simp only [runEdges, Host.Core.run]
  rw [hc]
  cases step s <;> rfl

theorem runEdges_of_step {n : Nat} {s t : State} (h : step s = .next t) :
    runEdges (n + 1) s = runEdges n t := by rw [runEdges_succ, h]

/-- A run that gives a next state gave one at its first edge. -/
theorem runEdges_next {n : Nat} {s t : State} (h : runEdges (n + 1) s = .next t) :
    ∃ u, step s = .next u ∧ runEdges n u = .next t := by
  rw [runEdges_succ] at h
  cases hs : step s <;> simp [hs] at h
  exact ⟨_, rfl, h⟩

/-- A run of `m + n` edges is a run of `m`, then of `n`. -/
theorem runEdges_add {m n : Nat} {s t : State} (h : runEdges m s = .next t) :
    runEdges (m + n) s = runEdges n t := by
  induction m generalizing s with
  | zero => simp at h; simp [h]
  | succ m ih =>
    obtain ⟨u, hu, h⟩ := runEdges_next h
    rw [Nat.add_right_comm, runEdges_of_step hu, ih h]

end Sys2Proof.Machine
end

