-- ==== Sys2Proof/Laws/Driver.lean ====
section
/-! SUPPORT. What the host's operations do: going on after a run, and issuing commands. -/

namespace Sys2Proof.Machine

@[simp] theorem HostRun.andThen_next {α β : Type} (a : α) (s : State) (k : α → State → HostRun β) :
    HostRun.andThen (.next (a, s)) k = k a s := rfl

/-- The edge presented first is the one the next step takes, and it leaves the others. -/
theorem step_presentFirst (e : PortEdge) (s : State) : step (presentFirst e s) = clockEdge e s := rfl

/-- The edges still to come have no part in a command, which leaves them. -/
theorem exec_inputs {i : Instr} {s t : State} (h : exec i s = .next t) (edges : List PortEdge) :
    t.inputs = s.inputs ∧ exec i { s with inputs := edges } = .next { t with inputs := edges } := by
  have hv : validate { s with inputs := edges } = validate s := rfl
  have hf : frameValues { s with inputs := edges } = frameValues s := rfl
  have hh := exec_next h
  cases i with
  | unpPush b => dsimp only at hh; subst hh; exact ⟨rfl, execUnpPush_eq b _⟩
  | unpDecode =>
    obtain ⟨v, h1, h2, rfl⟩ | ⟨d, hok, -, h1, rfl⟩ := hh
    · refine ⟨rfl, ?_⟩
      simp only [exec, execUnpDecode, hv, hf, h1, h2, orFault_ok]
      rfl
    · refine ⟨rfl, ?_⟩
      simp only [exec, execUnpDecode, hv, h1, orFault_ok]
      cases d <;> first | exact absurd rfl hok | rfl
  | statRead =>
    obtain ⟨hc, rfl⟩ := hh
    exact ⟨rfl, execStatRead_eq (s := { s with inputs := edges }) hc⟩
  | _ => dsimp only at hh; subst hh; exact ⟨rfl, rfl⟩

/-- The same of an edge that accepts a word, legal or not. -/
theorem clockEdge_inputs {w : Word} {s t : State} (h : clockEdge (commandEdge w) s = .next t)
    (edges : List PortEdge) :
    t.inputs = s.inputs ∧ clockEdge (commandEdge w) { s with inputs := edges } = .next { t with inputs := edges } := by
  rw [commandEdge, clockEdge_accept, acceptWord] at h ⊢
  split at h
  · rename_i hr
    rw [if_pos hr]
    split at h
    · exact exec_inputs h edges
    · cases h
      simp [raiseCmdError_eq]
  · cases h

/-- One issued command of a reset block does what the command does, and leaves the edges still to come. -/
theorem issueOne_next {i : Instr} {s t : State} (hd : decode (encode i) = .cmd i) (hs : s.hasReset = true)
    (h : exec i s = .next t) : issueOne i s = .next (t.rsp, t) := by
  have hstep : step (presentFirst (commandEdge (encode i)) s) = .next t := by
    rw [step_presentFirst, commandEdge, clockEdge_accept, acceptWord, if_pos hs, hd]
    exact h
  rw [issueOne, hstep]
  rfl

@[simp] theorem issue_nil (s : State) : issue [] s = .next ([], s) := rfl

theorem issue_cons {i : Instr} {rest : List Instr} {s t u : State} {w : Word} {ws : List Word}
    (h : issueOne i s = .next (w, t)) (hr : issue rest t = .next (ws, u)) :
    issue (i :: rest) s = .next (w :: ws, u) := by simp [issue, h, hr]

/-- Commands issued in two parts. -/
theorem issue_append {p q : List Instr} {s t u : State} {ws xs : List Word} (hp : issue p s = .next (ws, t))
    (hq : issue q t = .next (xs, u)) : issue (p ++ q) s = .next (ws ++ xs, u) := by
  induction p generalizing s ws with
  | nil => cases hp; exact hq
  | cons i p ih =>
    simp only [issue, HostRun.andThen] at hp
    rcases h1 : issueOne i s with ⟨w, v⟩ | _ | _ <;> simp only [h1] at hp <;> try contradiction
    rcases h2 : issue p v with ⟨ys, x⟩ | _ | _ <;> simp only [h2] at hp <;> try contradiction
    cases hp
    exact issue_cons h1 (ih h2)

/-- Issuing commands is running the edges that present them: the same block after them, one word of `rsp` each, and the
last word is what `rsp` still shows. -/
theorem issue_of_runEdges {p : List Instr} {s t : State}
    (h : runEdges p.length { s with inputs := commandEdges p ++ s.inputs } = .next t) :
    ∃ ws, issue p s = .next (ws, t) ∧ ws.length = p.length ∧ (p ≠ [] → lastWord ws = rspPort t) := by
  induction p generalizing s with
  | nil => cases h; exact ⟨[], rfl, rfl, fun h => absurd rfl h⟩
  | cons i p ih =>
    obtain ⟨u, hu, h⟩ := runEdges_next h
    replace hu : clockEdge (commandEdge (encode i)) { s with inputs := commandEdges p ++ s.inputs } = .next u := hu
    obtain ⟨hin, hc⟩ := clockEdge_inputs hu s.inputs
    have h1 : issueOne i s = .next (u.rsp, { u with inputs := s.inputs }) := by
      rw [issueOne, step_presentFirst, show s = { s with inputs := s.inputs } from rfl, hc]
      rfl
    have hu' : { { u with inputs := s.inputs } with inputs := commandEdges p ++ s.inputs } = u := by
      cases u
      simpa using hin.symm
    obtain ⟨ws, h2, hlen, hlast⟩ := ih (s := { u with inputs := s.inputs }) (by rw [hu']; exact h)
    refine ⟨u.rsp :: ws, issue_cons h1 h2, by simp [hlen], fun _ => ?_⟩
    cases p with
    | nil => cases h2; rfl
    | cons j p =>
      obtain ⟨w, ws, rfl⟩ := List.exists_cons_of_length_eq_add_one hlen
      simpa [lastWord] using hlast (by simp)

end Sys2Proof.Machine
end

