-- ==== Sys2Proof/Laws/PerInstr.lean ====
section
/-! SUPPORT. The per-instruction family TableRow: every command is well-formed, and its word is the one its row of
the opcode map prints (30_encoding.md R54). -/

namespace Sys2Proof.Laws.TableRow

/-- The fields of the command are legal, and its word selects the row of its mnemonic. -/
def Statement (i : Instr) : Prop :=
  i.wellFormed = true ∧ ∃ r ∈ opcodeRows, r.mnemonic = i.mnemonic ∧ r.selects (encode i) = true

theorem nop : Statement .nop := ⟨by decide, ⟨"NOP", 0x0000#16, 0xFFFF#16⟩, by decide, rfl, by decide⟩

theorem crcInit : Statement .crcInit :=
  ⟨by decide, ⟨"CRC_INIT", 0x0100#16, 0xFFFF#16⟩, by decide, rfl, by decide⟩

theorem crcByte (b : Byte) : Statement (.crcByte b) :=
  ⟨rfl, ⟨"CRC_BYTE", 0x0200#16, 0xFF00#16⟩, by decide, rfl, by revert b; decide⟩

theorem crcRead : Statement .crcRead :=
  ⟨by decide, ⟨"CRC_READ", 0x0300#16, 0xFFFF#16⟩, by decide, rfl, by decide⟩

theorem unpClear : Statement .unpClear :=
  ⟨by decide, ⟨"UNP_CLEAR", 0x1000#16, 0xFFFF#16⟩, by decide, rfl, by decide⟩

theorem unpPush (b : Byte) : Statement (.unpPush b) :=
  ⟨rfl, ⟨"UNP_PUSH", 0x1100#16, 0xFF00#16⟩, by decide, rfl, by revert b; decide⟩

theorem unpDecode : Statement .unpDecode :=
  ⟨by decide, ⟨"UNP_DECODE", 0x1200#16, 0xFFFF#16⟩, by decide, rfl, by decide⟩

theorem unpRead (k : BitVec 2) : Statement (.unpRead k) :=
  ⟨by revert k; decide, ⟨"UNP_READ", 0x1300#16, 0xFFFC#16⟩, by decide, rfl, by revert k; decide⟩

theorem statRead : Statement .statRead :=
  ⟨by decide, ⟨"STAT_READ", 0x2000#16, 0xFFFF#16⟩, by decide, rfl, by decide⟩

theorem errClear : Statement .errClear :=
  ⟨by decide, ⟨"ERR_CLEAR", 0x2100#16, 0xFFFF#16⟩, by decide, rfl, by decide⟩

end Sys2Proof.Laws.TableRow
end

