-- ==== Sys2Proof/Tests/Slice0.lean ====
section
/-! SUPPORT. The model's own tests. Expected values are the spec's: the opcode map (30_encoding.md R54), the rules'
examples, and the vectors of 95_test_vectors.md, named in each comment. The witnesses at the end meet the hypotheses of
the statements, clause by clause. -/

namespace Sys2Proof.Tests

open Sys2Proof.Machine

/-! ### Ill-formed fields are refused (R56, R57) -/

theorem test_undefined_op_refused : wellFormedFields 0x04#8 0x00#8 = false := by decide
theorem test_format_z_operand_refused : wellFormedFields 0x01#8 0x01#8 = false := by decide
theorem test_format_i_operand_refused : wellFormedFields 0x13#8 0x04#8 = false := by decide
theorem test_format_b_operand_admitted : wellFormedFields 0x11#8 0xFF#8 = true := by decide

/-! ### Every constructor's word, bit by bit from R54 -/

theorem test_decode_nop : decode 0b00000000_00000000#16 = .cmd .nop := by decide
theorem test_decode_crcInit : decode 0b00000001_00000000#16 = .cmd .crcInit := by decide
theorem test_decode_crcByte : decode 0b00000010_00000011#16 = .cmd (.crcByte 0x03#8) := by decide
theorem test_decode_crcRead : decode 0b00000011_00000000#16 = .cmd .crcRead := by decide
theorem test_decode_unpClear : decode 0b00010000_00000000#16 = .cmd .unpClear := by decide
theorem test_decode_unpPush : decode 0b00010001_11110100#16 = .cmd (.unpPush 0xF4#8) := by decide
theorem test_decode_unpDecode : decode 0b00010010_00000000#16 = .cmd .unpDecode := by decide
theorem test_decode_unpRead : decode 0b00010011_00000011#16 = .cmd (.unpRead 3#2) := by decide
theorem test_decode_statRead : decode 0b00100000_00000000#16 = .cmd .statRead := by decide
theorem test_decode_errClear : decode 0b00100001_00000000#16 = .cmd .errClear := by decide

/-- W5: 0x13FF is a bad operand. -/
theorem test_decode_bad_operand : decode 0x13FF#16 = .illegal .badOperand := by decide
/-- W4: 0xFFFF is an undefined opcode, its OP checked first. -/
theorem test_decode_undefined_opcode : decode 0xFFFF#16 = .illegal .undefinedOpcode := by decide

/-! ### One step each -/

/-- The next state, if there is one. -/
def next? : Result → Option State
  | .next t => some t
  | .fault _ => none
  | .refused _ => none

/-- One edge that accepts a word, taken from a state whose pending edges are none. -/
def accept (w : Word) (s : State) : Option State := next? (step { s with inputs := [commandEdge w] })

/-- A buffer that holds these bytes from index 0. -/
def bufOf (bytes : List Byte) : Memory := (List.range bytes.length).zip bytes

/-- The source's §8 response (S4, U3). -/
def frame : List Byte :=
  [0x01#8, 0x03#8, 0x08#8, 0x01#8, 0xF4#8, 0x00#8, 0xFA#8, 0x00#8, 0x64#8, 0x00#8, 0x23#8]

/-- A block with these bytes pushed. -/
def pushed (bytes : List Byte) : State :=
  { State.reset with buf := bufOf bytes, len := BitVec.ofNat 8 bytes.length }

/-- The block after U3: the frame pushed and decoded. -/
def decoded : State :=
  { pushed frame with dstat := .ok, val := ⟨0x01F4#16, 0x00FA#16, 0x0064#16, 0x0023#16⟩ }

/-- A block with an error recorded. -/
def erred : State := { decoded with err := true, ecause := .undefinedOpcode }

/-- R85: any state is left unchanged. -/
theorem test_nop : accept 0x0000#16 erred = some erred := by decide
/-- V22: CRC = 0x0944 becomes 0xFFFF. -/
theorem test_crcInit :
    accept 0x0100#16 { decoded with crc := 0x0944#16, rsp := 7#16 } =
      some { decoded with crc := 0xFFFF#16, rsp := 7#16 } := by decide
/-- V3, V25: from reset, byte 0x01 gives 0x807E. -/
theorem test_crcByte : accept 0x0201#16 State.reset = some { State.reset with crc := 0x807E#16 } := by decide
/-- V10: 0x1234 and byte 0x56 give 0xE993. -/
theorem test_crcByte_mixed : crcUpdate 0x1234#16 0x56#8 = 0xE993#16 := by decide
/-- R67: RSP = CRC, with no byte swapped. -/
theorem test_crcRead :
    accept 0x0300#16 { State.reset with crc := 0x0944#16 } =
      some { State.reset with crc := 0x0944#16, rsp := 0x0944#16 } := by decide
set_option maxRecDepth 8000 in
/-- V14: the request header's CRC; its wire bytes are 44 09 (R38, R103). -/
theorem test_request_frame :
    requestFrame (crc16 requestHeader) =
      [0x01#8, 0x03#8, 0x00#8, 0x00#8, 0x00#8, 0x04#8, 0x44#8, 0x09#8] := by decide
set_option maxRecDepth 8000 in
/-- V17: the CRC-16/MODBUS check value of "123456789". -/
theorem test_crc16_check :
    crc16 [0x31#8, 0x32#8, 0x33#8, 0x34#8, 0x35#8, 0x36#8, 0x37#8, 0x38#8, 0x39#8] = 0x4B37#16 := by decide
/-- R73, U13: LEN and DSTAT are cleared, BUF and VAL are kept. -/
theorem test_unpClear :
    accept 0x1000#16 decoded = some { decoded with len := 0x00#8, dstat := .none } := by decide
/-- R75: with LEN = 10 the byte goes to BUF[10] and LEN becomes 11. -/
theorem test_unpPush_last_cell : accept 0x1123#16 (pushed (frame.take 10)) = some (pushed frame) := by decide
/-- R75: with LEN = 255 nothing changes at all. -/
theorem test_unpPush_saturated :
    accept 0x1155#16 { decoded with len := 255#8 } = some { decoded with len := 255#8 } := by decide
/-- U3: the §8 response decodes to its four values. -/
theorem test_unpDecode_ok : accept 0x1200#16 (pushed frame) = some decoded := by decide
/-- U4: a wrong address is BAD_HEADER, and VAL is kept. -/
theorem test_unpDecode_bad_header :
    accept 0x1200#16 (pushed (0x02#8 :: frame.tail)) =
      some { pushed (0x02#8 :: frame.tail) with dstat := .badHeader } := by decide
/-- U16: UNP_READ PH gives 0x0023. -/
theorem test_unpRead_ph : accept 0x1303#16 decoded = some { decoded with rsp := 0x0023#16 } := by decide
/-- U16: UNP_READ TEMP gives 0x00FA. -/
theorem test_unpRead_temp : accept 0x1301#16 decoded = some { decoded with rsp := 0x00FA#16 } := by decide
/-- R87: LEN = 13, DSTAT = OK, ERR = 0 gives 0x0D01. -/
theorem test_statRead :
    accept 0x2000#16 { decoded with len := 13#8 } =
      some { decoded with len := 13#8, rsp := 0x0D01#16 } := by decide
/-- P3 step 19: LEN 11, BAD_OPERAND recorded, DSTAT OK gives 0x0B19. -/
theorem test_statRead_error :
    (accept 0x2000#16 { decoded with err := true, ecause := .badOperand }).map State.rsp = some 0x0B19#16 := by decide
/-- R88: the record is cleared, DSTAT is kept. -/
theorem test_errClear : accept 0x2100#16 erred = some decoded := by decide
/-- W10: the first cause is kept. -/
theorem test_first_cause_kept : accept 0x0001#16 erred = some erred := by decide
/-- U20: 0x1304 is a bad operand and leaves RSP. -/
theorem test_bad_operand_recorded :
    accept 0x1304#16 decoded = some { decoded with err := true, ecause := .badOperand } := by decide
/-- W15: an idle edge with an illegal word on `cmd` is no error. -/
theorem test_idle_edge : next? (step { decoded with inputs := [⟨false, false, 0xFFFF#16⟩] }) = some decoded := by decide
/-- W16: reset wins over a command at the same edge. -/
theorem test_reset_wins :
    next? (step { erred with inputs := [⟨true, true, 0x0201#16⟩] }) = some State.reset := by decide
/-- The host's word 0x0203, placed, decodes and runs as the first command after reset. -/
theorem test_placed_word :
    decodeTableWord 16 0x0203 = some (.crcByte 0x03#8) ∧
    (next? (step (State.reset.withFetchWord 16 0x0203))).map State.crc = some (crcUpdate 0xFFFF#16 0x03#8) := by decide

/-! ### Notation and the host's side -/

/-- R60: `UNP_PUSH 244` is 0x11F4. -/
theorem test_assemble_push : assembleLine "UNP_PUSH 244".toList = some [0x11F4#16] := by decide
/-- R60: two lines, one of them the directive for an illegal word. -/
theorem test_assemble_lines :
    assemble ["UNP_READ PH".toList, ".word 0x1304 ; illegal".toList] = some [0x1303#16, 0x1304#16] := by decide
/-- S4: (50.0, 25.0, 100, 3.5), in tenths where scaled. -/
theorem test_host_result : hostResult false 0x0D01#16 decoded.val = ⟨500, 250, 100, 35⟩ := by decide
/-- S7: an empty response gives the sentinel. -/
theorem test_host_sentinel : hostResult false 0x0002#16 decoded.val = ⟨-10, -10, -1, -10⟩ := by decide

/-- R103 step 6: only STAT[1:0] = OK has the host read; 0x0D01 is OK, 0x0B07 is BAD_HEADER. -/
theorem test_host_reads_only_if_ok :
    (readCommands 0x0D01#16).map encode = [0x1300#16, 0x1301#16, 0x1302#16, 0x1303#16] ∧ readCommands 0x0B07#16 = [] := by
  decide
/-- R103, R104: the four words sampled after UNP_READ_ALL are (50.0, 25.0, 100, 3.5), in tenths where scaled. -/
theorem test_host_reads_rsp :
    (match issue unpReadAll decoded with
      | .next (words, _) => (readValues words).map sensorReading
      | _ => none) = some ⟨500, 250, 100, 35⟩ := by decide

/-! ### Witnesses: the hypotheses of the statements can be met -/

/-- Words at both ends of the selections of `DecodedWordIsItsEncoding` and `DecodeFollowsTheOpcodeMap`. -/
theorem witness_decoded_words :
    decode 0x0000#16 = .cmd .nop ∧ decode 0x1303#16 = .cmd (.unpRead 3#2) ∧
    ∃ r ∈ opcodeRows, r.selects 0x1303#16 = true := by decide

/-- A reset block with one edge pending: `UndefinedOpcodes`, at OP 0x04 just above a defined one and 0xFF. -/
theorem witness_undefined_opcodes :
    (∃ s : State, s.hasReset = true ∧ s.inputs = [⟨false, true, 0x0400#16⟩]) ∧
    (0x0400#16).toNat / 256 ∉ [0x00, 0x01, 0x02, 0x03, 0x10, 0x11, 0x12, 0x13, 0x20, 0x21] ∧
    (0xFFFF#16).toNat / 256 ∉ [0x00, 0x01, 0x02, 0x03, 0x10, 0x11, 0x12, 0x13, 0x20, 0x21] :=
  ⟨⟨{ State.reset with inputs := [⟨false, true, 0x0400#16⟩] }, rfl, rfl⟩, by decide, by decide⟩

/-- `BadOperands`, both alternatives at their boundary. -/
theorem witness_bad_operands :
    (∃ s : State, s.hasReset = true ∧ s.inputs = [⟨false, true, 0x1304#16⟩]) ∧
    ((0x2101#16).toNat / 256 ∈ [0x00, 0x01, 0x03, 0x10, 0x12, 0x20, 0x21] ∧ (0x2101#16).toNat % 256 ≠ 0) ∧
    ((0x1304#16).toNat / 256 = 0x13 ∧ 3 < (0x1304#16).toNat % 256) :=
  ⟨⟨{ State.reset with inputs := [⟨false, true, 0x1304#16⟩] }, rfl, rfl⟩, by decide, by decide⟩

/-- `rejectsOperand` in the statements of the format-Z commands and UNP_READ: its operands, and its state. -/
theorem witness_rejected_operands :
    (0x01#8 : Byte) ≠ 0x00#8 ∧ (0xFF#8 : Byte) ≠ 0x00#8 ∧ 3 < (0x04#8 : Byte).toNat ∧
    ∃ s : State, s.hasReset = true ∧ s.inputs = [⟨false, true, 0x21#8 ++ 0x01#8⟩] :=
  ⟨by decide, by decide, by decide, { State.reset with inputs := [⟨false, true, 0x21#8 ++ 0x01#8⟩] }, rfl, rfl⟩

/-- `StepRunsTheDecodedCommand`. -/
theorem witness_step_runs :
    ∃ s : State, s.hasReset = true ∧ s.inputs = [⟨false, true, 0x1303#16⟩] ∧ decode 0x1303#16 = .cmd (.unpRead 3#2) :=
  ⟨{ decoded with inputs := [⟨false, true, 0x1303#16⟩] }, rfl, rfl, by decide⟩

/-- `PlacedWordRunsNext`, `NothingPresentedIsIdle`. -/
theorem witness_placed_word : decodeTableWord 16 0x1303 = some (.unpRead 3#2) ∧ decoded.inputs = [] := by decide

/-- `IllegalWordOnlyRecordsItsCause` and the second clause of `ErrIsSticky`: both causes, ERR clear and set. -/
theorem witness_illegal_words :
    decode 0x0400#16 = .illegal .undefinedOpcode ∧ decode 0x0001#16 = .illegal .badOperand ∧
    (∃ s : State, s.hasReset = true ∧ s.err = false ∧ s.inputs = [⟨false, true, 0x0400#16⟩]) ∧
    (∃ s : State, s.hasReset = true ∧ s.err = true ∧ s.inputs = [⟨false, true, 0x0001#16⟩]) :=
  ⟨by decide, by decide, ⟨{ decoded with inputs := [⟨false, true, 0x0400#16⟩] }, rfl, rfl, rfl⟩,
    ⟨{ erred with inputs := [⟨false, true, 0x0001#16⟩] }, rfl, rfl, rfl⟩⟩

/-- `IdleEdgeChangesNothing`, `ResetEdgeGivesTheResetValues`, `ResetEdgeEstablishesTheInvariant`, one edge each. -/
theorem witness_edges :
    (∃ s : State, s.inputs = [⟨false, false, 0xFFFF#16⟩]) ∧
    (∃ s : State, s.inputs = [⟨true, true, 0x0201#16⟩] ∧ resetPresented s) :=
  ⟨⟨{ erred with inputs := [⟨false, false, 0xFFFF#16⟩] }, rfl⟩,
    ⟨{ erred with inputs := [⟨true, true, 0x0201#16⟩] }, rfl, rfl⟩⟩

/-- `OneResetEdgeSuffices`, with two reset edges, one of them over a command. -/
theorem witness_reset_edges :
    ∃ (s : State) (edges : List PortEdge), edges ≠ [] ∧ (∀ e ∈ edges, e.rst = true) ∧ s.inputs = edges ++ [idleEdge] :=
  ⟨{ erred with inputs := [resetEdge, ⟨true, true, 0x0201#16⟩, idleEdge] },
    [resetEdge, ⟨true, true, 0x0201#16⟩], by decide, by decide, rfl⟩

/-- `CommandBeforeResetIsRefused`, and the refusal of `OnlyAcceptedCommandsCanStop`. -/
theorem witness_before_reset :
    ∃ s : State, s.hasReset = false ∧ s.inputs = [⟨false, true, 0x0000#16⟩] ∧ step s = .refused .beforeReset :=
  ⟨{ erred with hasReset := false, inputs := [⟨false, true, 0x0000#16⟩] }, rfl, rfl, rfl⟩

/-- The faults of `OnlyAcceptedCommandsCanStop`, `UnpDecodeFaultsOnAnUnwrittenCell` at its first cell, and
`StatReadFaultsOnTheReservedCause`. -/
theorem witness_faults :
    step { decoded with buf := [], inputs := [⟨false, true, 0x1200#16⟩] } = .fault (.unwrittenCell 0) ∧
    step { decoded with ecause := .reserved, inputs := [⟨false, true, 0x2000#16⟩] } = .fault .reservedCause := ⟨rfl, rfl⟩

/-- `UnpDecodeFaultsOnAnUnwrittenCell` at its first and last cells. -/
theorem witness_unwritten_cells :
    (∃ s : State, 11 ≤ s.len.toNat ∧ Memory.read s.buf 0 = none) ∧
    (∃ s : State, 11 ≤ s.len.toNat ∧ Memory.read s.buf 10 = none ∧
      (∀ j, j < 10 → (Memory.read s.buf j).isSome = true) ∧ Memory.read s.buf 0 = some 0x01#8 ∧
      Memory.read s.buf 1 = some 0x03#8 ∧ Memory.read s.buf 2 = some 0x08#8) :=
  ⟨⟨{ decoded with buf := [] }, by decide, rfl⟩,
    ⟨{ decoded with buf := bufOf (frame.take 10) }, by decide, by decide, by decide, by decide, by decide, by decide⟩⟩

/-- `CrcReadPutsTheCrcOnRsp` and the CRC clause of `CrcUnitAndUnpackerAreIndependent`. -/
theorem witness_crc_command : isCrcCommand .crcRead = true ∧ exec .crcRead decoded = .next { decoded with rsp := 0xFFFF#16 } :=
  ⟨rfl, rfl⟩

/-- `CrcBitStepShiftsRight`: a value of each parity. -/
theorem witness_parities : (0xFFFF#16 : Word).toNat % 2 = 1 ∧ (0x0000#16 : Word).toNat % 2 = 0 := by decide

/-- `CrcMsgComputesCrc16` and `FrameWithItsCrcHasZeroResidue`, at the empty message. -/
theorem witness_crc_messages :
    (∃ s : State, s.hasReset = true ∧ s.inputs = commandEdges (crcMsg []) ++ []) ∧
    (∃ s : State, s.hasReset = true ∧
      s.inputs = commandEdges (crcMsg ([] ++ wireBytes (crc16 [])) ++ [.crcRead]) ++ []) :=
  ⟨⟨{ erred with inputs := commandEdges (crcMsg []) }, rfl, rfl⟩,
    ⟨{ erred with inputs := commandEdges (crcMsg (wireBytes (crc16 [])) ++ [.crcRead]) }, rfl, rfl⟩⟩

/-- `UnpPushStoresAndCounts`, LEN on both sides of the last cell. -/
theorem witness_push_lengths :
    (pushed (frame.take 10)).len.toNat = 10 ∧ pushIndex (pushed (frame.take 10)) = some 10 ∧
    (pushed frame).len.toNat = 11 ∧ pushIndex (pushed frame) = none := by decide

/-- `FramePushesFillTheBufferInOrder`, `FrameDecodeIsTheSourcesDecode`, `TrailingBytesAreIgnored`,
`HostGetsTheReadingOrTheSentinel`: the edges of a frame of eleven bytes. -/
theorem witness_frames :
    11 ≤ frame.length ∧ erred.ecause ≠ .reserved ∧
    (∃ s : State, s.hasReset = true ∧ s.inputs = commandEdges (unpFrame frame) ++ [idleEdge]) ∧
    (∃ s : State, s.hasReset = true ∧ s.inputs = commandEdges (unpFrame frame ++ [.unpDecode]) ++ [idleEdge]) ∧
    (∃ s : State, s.hasReset = true ∧ s.ecause ≠ .reserved ∧
      s.inputs = commandEdges (responseCommands frame) ++ [idleEdge]) :=
  ⟨by decide, by decide, ⟨{ erred with inputs := commandEdges (unpFrame frame) ++ [idleEdge] }, rfl, rfl⟩,
    ⟨{ erred with inputs := commandEdges (unpFrame frame ++ [.unpDecode]) ++ [idleEdge] }, rfl, rfl⟩,
    ⟨{ erred with inputs := commandEdges (responseCommands frame) ++ [idleEdge] }, rfl, by decide, rfl⟩⟩

/-- `HostStepsOneAndSixUseTheBlock` and `HostCycleReturnsTheReadingOrTheSentinel`: a reset block with an error recorded, status
words on both sides, and a transport that answers. -/
theorem witness_host_cycle :
    erred.hasReset = true ∧ erred.ecause ≠ .reserved ∧ (0x0D01#16 : Word).toNat % 4 = 1 ∧
    (0x0B07#16 : Word).toNat % 4 ≠ 1 ∧ ∃ transport : List Byte → Option (List Byte), transport [] = some frame :=
  ⟨rfl, by decide, by decide, by decide, fun _ => some frame, rfl⟩

/-- `UnpDecodeValidatesThenDecodes`: LEN = 10; LEN = 11 with a wrong count byte; LEN = 11 with the right header. -/
theorem witness_decode_clauses :
    (pushed (frame.take 10)).len.toNat < 11 ∧
    (11 ≤ (pushed (0x01#8 :: 0x03#8 :: 0x07#8 :: frame.drop 3)).len.toNat ∧
      Memory.read (pushed (0x01#8 :: 0x03#8 :: 0x07#8 :: frame.drop 3)).buf 0 = some 0x01#8 ∧
      Memory.read (pushed (0x01#8 :: 0x03#8 :: 0x07#8 :: frame.drop 3)).buf 1 = some 0x03#8 ∧
      Memory.read (pushed (0x01#8 :: 0x03#8 :: 0x07#8 :: frame.drop 3)).buf 2 = some 0x07#8 ∧
      (0x07#8 : Byte) ≠ 0x08#8) ∧
    (11 ≤ (pushed frame).len.toNat ∧
      ∀ k : Fin 11, Memory.read (pushed frame).buf k.val = some (frame.get k)) := by decide

/-- `DecodeDoesNotConsumeTheFrame`: a successful decode, with one more push and a decode pending. -/
theorem witness_decoded_twice :
    ∃ s t : State, exec .unpDecode s = .next t ∧ t.dstat = .ok ∧ t.hasReset = true ∧
      t.inputs = commandEdges ([0x55#8].map .unpPush ++ [.unpDecode]) ++ [] :=
  ⟨{ pushed frame with inputs := commandEdges ([0x55#8].map .unpPush ++ [.unpDecode]) },
    { decoded with inputs := commandEdges ([0x55#8].map .unpPush ++ [.unpDecode]) }, rfl, rfl, rfl, rfl⟩

/-- `ModbusRegistersAreBigEndian` at its first and last registers. -/
theorem witness_register_bytes :
    Memory.read (pushed frame).buf (3 + 2 * 0) = some 0x01#8 ∧ Memory.read (pushed frame).buf (4 + 2 * 0) = some 0xF4#8 ∧
    Memory.read (pushed frame).buf (3 + 2 * 3) = some 0x00#8 ∧ Memory.read (pushed frame).buf (4 + 2 * 3) = some 0x23#8 := by
  decide

/-- `StatReadAssemblesTheStatus`, `StatReadFaultsOnTheReservedCause`: both sides of their hypotheses. -/
theorem witness_causes : erred.ecause ≠ .reserved ∧ ({ erred with ecause := .reserved } : State).ecause = .reserved := by
  decide

/-- `ControlCommandsTouchOnlyTheirOwn` and the read clause of `RepeatableCommandsAreIdempotent`: STAT_READ completes. -/
theorem witness_control_command :
    isControlCommand .statRead = true ∧ exec .statRead erred = .next { erred with rsp := 0x0B15#16 } := ⟨rfl, rfl⟩

/-- The unpacker clause of `CrcUnitAndUnpackerAreIndependent`, and `ErrorRecordBlocksNoCommand`: UNP_DECODE completes. -/
theorem witness_unpacker_command :
    isUnpackerCommand .unpDecode = true ∧ exec .unpDecode (pushed frame) = .next decoded := ⟨rfl, rfl⟩

/-- The first clause of `ErrIsSticky`, and `FlagsHaveTheirWriters` for ERR: ERR_CLEAR clears. -/
theorem witness_error_cleared :
    step { erred with inputs := [commandEdge 0x2100#16] } = .next decoded ∧ erred.err = true ∧ decoded.err = false :=
  ⟨rfl, rfl, rfl⟩

/-- `FirstCauseIsKeptUntilCleared`, over an illegal word. -/
theorem witness_cause_kept :
    ∃ s t : State, s.err = true ∧ (∀ e ∈ s.inputs, e.rst = false ∧ e ≠ ⟨false, true, 0x2100#16⟩) ∧ s.inputs ≠ [] ∧
      runEdges 1 s = .next t :=
  ⟨{ erred with inputs := [commandEdge 0x0001#16] }, erred, rfl, by decide, by decide, rfl⟩

/-- `FlagsHaveTheirWriters` for DSTAT and `ValHasItsWriters`: UNP_DECODE changes both, at an edge that is no reset. -/
theorem witness_decode_writes :
    step { pushed frame with inputs := [commandEdge 0x1200#16] } = .next decoded ∧
    decoded.dstat ≠ (pushed frame).dstat ∧ decoded.val ≠ (pushed frame).val := ⟨rfl, by decide, by decide⟩

/-- `CrcHasItsWriters`: CRC_BYTE changes CRC. -/
theorem witness_crc_written :
    step { State.reset with inputs := [commandEdge 0x0201#16] } = .next { State.reset with crc := 0x807E#16 } ∧
    (0x807E#16 : Word) ≠ State.reset.crc := ⟨rfl, by decide⟩

/-- `RspHasItsWriters`: UNP_READ changes RSP. -/
theorem witness_rsp_written :
    step { decoded with inputs := [commandEdge 0x1303#16] } = .next { decoded with rsp := 0x0023#16 } ∧
    rspPort { decoded with rsp := 0x0023#16 } ≠ rspPort decoded := ⟨rfl, by decide⟩

/-- `BufAndLenHaveTheirWriters`: a push changes both. -/
theorem witness_push_writes :
    step { pushed (frame.take 10) with inputs := [commandEdge 0x1123#16] } = .next (pushed frame) ∧
    (pushed frame).buf ≠ (pushed (frame.take 10)).buf ∧ (pushed frame).len ≠ (pushed (frame.take 10)).len :=
  ⟨rfl, by decide, by decide⟩

/-- `ValIsZeroUntilADecodeSucceeds`: one push from reset, DSTAT never OK. -/
theorem witness_no_decode :
    ∃ t : State, runEdges 1 { State.reset with inputs := [commandEdge 0x1101#16] } = .next t ∧
      ∀ (m : Nat) (u : State), m ≤ 1 →
        runEdges m { State.reset with inputs := [commandEdge 0x1101#16] } = .next u → u.dstat ≠ .ok := by
  refine ⟨{ State.reset with buf := [(0, 0x01#8)], len := 0x01#8 }, rfl, fun m u hm h => ?_⟩
  obtain rfl | rfl : m = 0 ∨ m = 1 := by omega
  · cases h; decide
  · have h1 : runEdges 1 { State.reset with inputs := [commandEdge 0x1101#16] } =
        .next { State.reset with buf := [(0, 0x01#8)], len := 0x01#8 } := rfl
    cases h1.symm.trans h; decide

/-- `EveryEdgeKeepsTheInvariant`, `NoStopOnceReset`: a state with a decoded frame meets the invariant, and steps. -/
theorem witness_invariant : decoded.Inv ∧ decoded.hasReset = true ∧ step decoded = .next decoded := by
  refine ⟨⟨by decide, by decide, fun _ => rfl, fun h => ?_, fun _ => ⟨by decide, rfl, rfl⟩, fun h => ?_⟩, rfl, rfl⟩
  · exact absurd h (by decide)
  · exact absurd h (by decide)

end Sys2Proof.Tests
end

section
/-! A word that decodes to a command is that command's encoding (30_encoding.md R54, R58), so an edge that accepts such
a word presents the command. -/

namespace Sys2Proof

/-- Format Z gives its one command, and only from a zero operand. -/
theorem decodeZ_eq_cmd {imm : Byte} {i j : Instr} (h : decodeZ imm i = .cmd j) : imm = 0x00#8 ∧ i = j := by
  by_cases himm : imm = 0x00#8
  · subst himm
    exact ⟨rfl, by simpa [decodeZ_zero] using h⟩
  · simp [decodeZ_nonzero himm] at h

/-- An IMM8 of at most 3 is its own index with zeros above it. -/
theorem zero_append_index {imm : Byte} (h : imm.extractLsb' 2 6 = 0#6) : 0#6 ++ imm.extractLsb' 0 2 = imm := by
  revert imm; decide

/-- Format I gives its command for the operand's index, and only from an operand that is an index. -/
theorem decodeI_eq_cmd {imm : Byte} {mk : BitVec 2 → Instr} {j : Instr} (h : decodeI imm mk = .cmd j) :
    ∃ k : BitVec 2, imm = 0#6 ++ k ∧ mk k = j := by
  by_cases himm : imm.extractLsb' 2 6 = 0#6
  · exact ⟨imm.extractLsb' 0 2, (zero_append_index himm).symm, by simpa [decodeI, himm] using h⟩
  · simp [decodeI, himm] at h

/-- A word of a format-Z OP that decodes to a command is the OP above a zero byte. -/
theorem word_of_decodeZ {w : Word} {op : Byte} {i j : Instr} (hop : opField w = op)
    (hd : decode w = decodeZ (immField w) i) (h : decode w = .cmd j) : w = op ++ 0x00#8 ∧ i = j := by
  obtain ⟨himm, hij⟩ := decodeZ_eq_cmd (hd.symm.trans h)
  exact ⟨by rw [← opField_append_immField w, hop, himm], hij⟩

/-- Only its own word decodes to a command. -/
theorem encode_of_decode {w : Word} {i : Instr} (h : decode w = .cmd i) : encode i = w := by
  by_cases hdef : opField w ∈ definedOps
  · simp only [List.mem_cons, List.not_mem_nil, or_false] at hdef
    obtain hop | hop | hop | hop | hop | hop | hop | hop | hop | hop := hdef
    · obtain ⟨rfl, rfl⟩ := word_of_decodeZ hop (decode_op_nop hop) h; rfl
    · obtain ⟨rfl, rfl⟩ := word_of_decodeZ hop (decode_op_crcInit hop) h; rfl
    · rw [decode_op_crcByte hop] at h
      cases h
      rw [encode, ← hop, opField_append_immField]
    · obtain ⟨rfl, rfl⟩ := word_of_decodeZ hop (decode_op_crcRead hop) h; rfl
    · obtain ⟨rfl, rfl⟩ := word_of_decodeZ hop (decode_op_unpClear hop) h; rfl
    · rw [decode_op_unpPush hop] at h
      cases h
      rw [encode, ← hop, opField_append_immField]
    · obtain ⟨rfl, rfl⟩ := word_of_decodeZ hop (decode_op_unpDecode hop) h; rfl
    · obtain ⟨k, himm, rfl⟩ := decodeI_eq_cmd ((decode_op_unpRead hop).symm.trans h)
      rw [encode, ← hop, ← himm, opField_append_immField]
    · obtain ⟨rfl, rfl⟩ := word_of_decodeZ hop (decode_op_statRead hop) h; rfl
    · obtain ⟨rfl, rfl⟩ := word_of_decodeZ hop (decode_op_errClear hop) h; rfl
  · simp [decode_op_undefined hdef] at h

end Sys2Proof
end

section
/-! What one edge can change: the step by the command it presents, and the writers of every state element
(10_state.md R12). -/

namespace Sys2Proof.Machine

/-- An edge with `rst = 0` and `cmd_valid = 1` is the command edge of its word. -/
theorem presentedEdge_eq_commandEdge {s : State} (hr : (presentedEdge s).rst = false)
    (hv : (presentedEdge s).cmdValid = true) : presentedEdge s = commandEdge (presentedEdge s).cmd := by
  rw [commandEdge, ← hr, ← hv]

/-- An accepted word that decodes to a command presents that command. -/
theorem commandPresented_of_decode {s : State} {i : Instr} (hr : (presentedEdge s).rst = false)
    (hv : (presentedEdge s).cmdValid = true) (hd : decode (presentedEdge s).cmd = .cmd i) : commandPresented s i := by
  rw [commandPresented, encode_of_decode hd]
  exact presentedEdge_eq_commandEdge hr hv

/-- Everything an edge that gives a next state can do, in the terms of the statements: reset, idle, run the command
presented, or record the error of the illegal word presented. -/
theorem step_next_presented {s t : State} (h : step s = .next t) :
    (resetPresented s ∧ t = { State.reset with inputs := s.inputs.tail }) ∨
    t = { s with inputs := s.inputs.tail } ∨
    (∃ i, commandPresented s i ∧ exec i { s with inputs := s.inputs.tail } = .next t) ∨
    (∃ w c, presentedEdge s = commandEdge w ∧ decode w = .illegal c ∧
      t = raiseCmdError c { s with inputs := s.inputs.tail }) := by
  obtain hreset | ⟨-, -, hidle⟩ | ⟨hr, hv, -, i, hd, hexec⟩ | ⟨hr, hv, -, c, hd, hraise⟩ := step_next h
  · exact .inl hreset
  · exact .inr (.inl hidle)
  · exact .inr (.inr (.inl ⟨i, commandPresented_of_decode hr hv hd, hexec⟩))
  · exact .inr (.inr (.inr ⟨_, c, presentedEdge_eq_commandEdge hr hv, hd, hraise⟩))

/-- What a part of the state that neither the pending edges nor an error touch changes by: a reset edge, or the command
presented. -/
theorem step_changes {α : Type} (part : State → α) (hinputs : ∀ s edges, part { s with inputs := edges } = part s)
    (hraise : ∀ c s, part (raiseCmdError c s) = part s) {s t : State} (h : step s = .next t)
    (hne : part t ≠ part s) :
    resetPresented s ∨ ∃ i, commandPresented s i ∧ exec i { s with inputs := s.inputs.tail } = .next t := by
  obtain ⟨hreset, -⟩ | rfl | hcmd | ⟨w, c, -, -, rfl⟩ := step_next_presented h
  · exact .inl hreset
  · exact absurd (hinputs s _) hne
  · exact .inr hcmd
  · exact absurd ((hraise c _).trans (hinputs s _)) hne

/-- From `s` to `t`, each element of the state changed only if `i` is one of its writers (10_state.md R12 to R26). -/
structure OnlyWriters (i : Instr) (s t : State) : Prop where
  crc : t.crc ≠ s.crc → i = .crcInit ∨ ∃ b, i = .crcByte b
  buf : t.buf ≠ s.buf → ∃ b, i = .unpPush b
  len : t.len ≠ s.len → i = .unpClear ∨ ∃ b, i = .unpPush b
  val : t.val ≠ s.val → i = .unpDecode ∧ t.dstat = .ok
  dstat : t.dstat ≠ s.dstat → i = .unpDecode ∨ i = .unpClear
  errorRecord : t.err ≠ s.err ∨ t.ecause ≠ s.ecause → i = .errClear
  rsp : t.rsp ≠ s.rsp → i = .crcRead ∨ i = .statRead ∨ ∃ k, i = .unpRead k
  hasReset : t.hasReset = s.hasReset

/-- A command that completes changes only what it is a writer of. -/
theorem exec_onlyWriters {i : Instr} {s t : State} (h : exec i s = .next t) : OnlyWriters i s t := by
  have hnext := exec_next h
  cases i with
  | unpDecode => obtain ⟨v, -, -, rfl⟩ | ⟨d, -, -, -, rfl⟩ := hnext <;> constructor <;> simp
  | statRead => obtain ⟨-, rfl⟩ := hnext; constructor <;> simp
  | _ => dsimp only at hnext; subst hnext; constructor <;> simp

/-- Only an ERR_CLEAR or an illegal word changes ERR or ECAUSE, reset apart; the illegal word sets ERR
(10_state.md R20, R26). -/
theorem step_changes_errorRecord {s t : State} (h : step s = .next t)
    (hne : t.err ≠ s.err ∨ t.ecause ≠ s.ecause) :
    resetPresented s ∨ commandPresented s .errClear ∨
      ((∃ w c, presentedEdge s = commandEdge w ∧ decode w = .illegal c) ∧ t.err = true) := by
  obtain ⟨hreset, -⟩ | rfl | ⟨i, hi, hexec⟩ | ⟨w, c, hw, hd, rfl⟩ := step_next_presented h
  · exact .inl hreset
  · simp at hne
  · obtain rfl := (exec_onlyWriters hexec).errorRecord hne
    exact .inr (.inl hi)
  · exact .inr (.inr ⟨⟨w, c, hw, hd⟩, raiseCmdError_err c _⟩)

end Sys2Proof.Machine
end

section
/-! The obligations on the writers of each element. -/

namespace Sys2Proof.Machine

/-- Settles O44, from the writers of CRC. -/
theorem crcHasItsWriters : Obligations.CrcHasItsWriters := by
  intro s t h hne
  obtain hreset | ⟨i, hi, hexec⟩ := step_changes State.crc (fun _ _ => rfl) raiseCmdError_crc h hne
  · exact .inl hreset
  · obtain rfl | ⟨b, rfl⟩ := (exec_onlyWriters hexec).crc hne
    · exact .inr (.inl hi)
    · exact .inr (.inr ⟨b, hi⟩)

/-- Settles O45, from the one writer of VAL. -/
theorem valHasItsWriters : Obligations.ValHasItsWriters := by
  intro s t h hne
  obtain hreset | ⟨i, hi, hexec⟩ := step_changes State.val (fun _ _ => rfl) raiseCmdError_val h hne
  · exact .inl hreset
  · obtain ⟨rfl, hok⟩ := (exec_onlyWriters hexec).val hne
    exact .inr ⟨hi, hok⟩

/-- Settles O46, from the writers of RSP, which the `rsp` port shows. -/
theorem rspHasItsWriters : Obligations.RspHasItsWriters := by
  intro s t h hne
  obtain hreset | ⟨i, hi, hexec⟩ := step_changes State.rsp (fun _ _ => rfl) raiseCmdError_rsp h hne
  · exact .inl hreset
  · obtain rfl | rfl | ⟨k, rfl⟩ := (exec_onlyWriters hexec).rsp hne
    · exact .inr (.inl hi)
    · exact .inr (.inr (.inl hi))
    · exact .inr (.inr (.inr ⟨k, hi⟩))

/-- Settles O47, from the writers of BUF and of LEN. -/
theorem bufAndLenHaveTheirWriters : Obligations.BufAndLenHaveTheirWriters := by
  intro s t h hnoreset
  refine ⟨fun hne => ?_, fun hne => ?_⟩
  · obtain hreset | ⟨i, hi, hexec⟩ := step_changes State.buf (fun _ _ => rfl) raiseCmdError_buf h hne
    · exact absurd hreset hnoreset
    · obtain ⟨b, rfl⟩ := (exec_onlyWriters hexec).buf hne
      exact ⟨b, hi⟩
  · obtain hreset | ⟨i, hi, hexec⟩ := step_changes State.len (fun _ _ => rfl) raiseCmdError_len h hne
    · exact absurd hreset hnoreset
    · obtain rfl | ⟨b, rfl⟩ := (exec_onlyWriters hexec).len hne
      · exact .inl hi
      · exact .inr ⟨b, hi⟩

/-- Settles O43, from the writers of DSTAT and of the error record. -/
theorem flagsHaveTheirWriters : Obligations.FlagsHaveTheirWriters := by
  intro s t h hnoreset
  refine ⟨fun hne => ?_, fun hne => ?_⟩
  · obtain hreset | ⟨i, hi, hexec⟩ := step_changes State.dstat (fun _ _ => rfl) raiseCmdError_dstat h hne
    · exact absurd hreset hnoreset
    · obtain rfl | rfl := (exec_onlyWriters hexec).dstat hne
      · exact .inl hi
      · exact .inr hi
  · obtain hreset | hclear | ⟨hillegal, -⟩ := step_changes_errorRecord h hne
    · exact absurd hreset hnoreset
    · exact .inl hclear
    · exact .inr hillegal

/-- Settles O41: an illegal word sets ERR, so of the writers of ERR only ERR_CLEAR and a reset edge clear it. -/
theorem errIsSticky : Obligations.ErrIsSticky := by
  refine ⟨fun s t h hs ht => ?_, fun s w rest c hreset hin hd => ?_⟩
  · obtain hreset | hclear | ⟨-, herr⟩ := step_changes_errorRecord h (.inl (by simp [hs, ht]))
    · exact .inl hreset
    · exact .inr hclear
    · simp [ht] at herr
  · refine ⟨raiseCmdError c { s with inputs := rest }, ?_, raiseCmdError_err c _⟩
    rw [step_cons hin, clockEdge_accept, acceptWord_illegal hreset hd]

end Sys2Proof.Machine
end

section
/-! What UNP_DECODE reads: the header cells and the four registers, all written, or one of them the first that is not
(10_state.md R29, 20_memory.md R35, R36). -/

namespace Sys2Proof.Machine

/-- Register `i` of a frame whose two cells have been written. -/
theorem frameRegister_of_read {s : State} {i : Nat} {hi lo : Byte} (h : i ≤ 3)
    (hhi : Memory.read s.buf (regOffset i) = some hi) (hlo : Memory.read s.buf (regOffset i + 1) = some lo) :
    frameRegister s i = .ok (be16 hi lo) := by
  have hlt : regOffset i + 1 < 11 := by unfold regOffset; omega
  rw [frameRegister, memRead_of_read (by omega) hhi, memRead_of_read hlt hlo]
  rfl

theorem frameRegister_of_written {s : State} {i : Nat} (h : i ≤ 3)
    (hhi : (Memory.read s.buf (regOffset i)).isSome = true)
    (hlo : (Memory.read s.buf (regOffset i + 1)).isSome = true) : ∃ v, frameRegister s i = .ok v := by
  obtain ⟨hi, hhi⟩ := Option.isSome_iff_exists.mp hhi
  obtain ⟨lo, hlo⟩ := Option.isSome_iff_exists.mp hlo
  exact ⟨_, frameRegister_of_read h hhi hlo⟩

/-- Register `i` of a frame in which one of its two cells is the first with no value. -/
theorem frameRegister_of_unwritten {s : State} {i k : Nat} (h : i ≤ 3)
    (hk : k = regOffset i ∨ k = regOffset i + 1) (hnone : Memory.read s.buf k = none)
    (hbefore : ∀ j < k, (Memory.read s.buf j).isSome = true) :
    frameRegister s i = .error (.unwrittenCell k) := by
  have hlt : regOffset i + 1 < 11 := by unfold regOffset; omega
  obtain rfl | rfl := hk
  · rw [frameRegister, memRead_of_unwritten (by omega) hnone]
    rfl
  · obtain ⟨hi, hhi⟩ := Option.isSome_iff_exists.mp (hbefore (regOffset i) (Nat.lt_succ_self _))
    rw [frameRegister, memRead_of_read (by omega) hhi, memRead_of_unwritten hlt hnone]
    rfl

/-- The four registers, each of which is there. -/
theorem frameValues_of_registers {s : State} {hum temp ec ph : Word} (h0 : frameRegister s 0 = .ok hum)
    (h1 : frameRegister s 1 = .ok temp) (h2 : frameRegister s 2 = .ok ec) (h3 : frameRegister s 3 = .ok ph) :
    frameValues s = .ok ⟨hum, temp, ec, ph⟩ := by
  rw [frameValues, h0, h1, h2, h3]
  rfl

/-- The registers are read in order, so the first that faults stops the decode. -/
theorem frameValues_of_register_error {s : State} {i : Nat} {f : Fault} (h : i ≤ 3)
    (hbefore : ∀ j < i, ∃ v, frameRegister s j = .ok v) (herror : frameRegister s i = .error f) :
    frameValues s = .error f := by
  obtain rfl | rfl | rfl | rfl : i = 0 ∨ i = 1 ∨ i = 2 ∨ i = 3 := by omega
  · rw [frameValues, herror]
    rfl
  · obtain ⟨v0, h0⟩ := hbefore 0 (by decide)
    rw [frameValues, h0, herror]
    rfl
  · obtain ⟨v0, h0⟩ := hbefore 0 (by decide)
    obtain ⟨v1, h1⟩ := hbefore 1 (by decide)
    rw [frameValues, h0, h1, herror]
    rfl
  · obtain ⟨v0, h0⟩ := hbefore 0 (by decide)
    obtain ⟨v1, h1⟩ := hbefore 1 (by decide)
    obtain ⟨v2, h2⟩ := hbefore 2 (by decide)
    rw [frameValues, h0, h1, h2, herror]
    rfl

/-- The four registers of a frame whose eight data cells have been written. -/
theorem frameValues_of_written {s : State} (h : ∀ k < 11, (Memory.read s.buf k).isSome = true) :
    ∃ v, frameValues s = .ok v := by
  have hregister : ∀ i ≤ 3, ∃ v, frameRegister s i = .ok v := fun i hi =>
    frameRegister_of_written hi (h _ (by unfold regOffset; omega)) (h _ (by unfold regOffset; omega))
  obtain ⟨hum, h0⟩ := hregister 0 (by decide)
  obtain ⟨temp, h1⟩ := hregister 1 (by decide)
  obtain ⟨ec, h2⟩ := hregister 2 (by decide)
  obtain ⟨ph, h3⟩ := hregister 3 (by decide)
  exact ⟨_, frameValues_of_registers h0 h1 h2 h3⟩

/-- The first data cell with no value is the fault of the register it belongs to. -/
theorem frameValues_of_unwritten {s : State} {k : Nat} (hk : 3 ≤ k) (hlt : k < 11)
    (hnone : Memory.read s.buf k = none) (hbefore : ∀ j < k, (Memory.read s.buf j).isSome = true) :
    frameValues s = .error (.unwrittenCell k) := by
  refine frameValues_of_register_error (i := (k - 3) / 2) (by omega) (fun j hj => ?_)
    (frameRegister_of_unwritten (by omega) (by unfold regOffset; omega) hnone hbefore)
  exact frameRegister_of_written (by omega) (hbefore _ (by unfold regOffset; omega))
    (hbefore _ (by unfold regOffset; omega))

/-- A validation comes to an outcome when the header cells have been written. -/
theorem validate_of_written {s : State} (hl : 11 ≤ s.len.toNat)
    (h : ∀ k < 3, (Memory.read s.buf k).isSome = true) : ∃ d, validate s = .ok d := by
  obtain ⟨addr, h0⟩ := Option.isSome_iff_exists.mp (h 0 (by decide))
  obtain ⟨func, h1⟩ := Option.isSome_iff_exists.mp (h 1 (by decide))
  obtain ⟨count, h2⟩ := Option.isSome_iff_exists.mp (h 2 (by decide))
  exact ⟨_, validate_of_header hl h0 h1 h2⟩

/-- The first header cell with no value is the fault of the validation. -/
theorem validate_of_unwritten {s : State} {k : Nat} (hl : 11 ≤ s.len.toNat) (hk : k ≤ 2)
    (hnone : Memory.read s.buf k = none) (hbefore : ∀ j < k, (Memory.read s.buf j).isSome = true) :
    validate s = .error (.unwrittenCell k) := by
  have hlong : ¬ s.len.toNat < Config.minLen := Nat.not_lt.mpr hl
  have hread : ∀ j < k, ∃ b, memRead s j = .ok b := fun j hj => by
    obtain ⟨b, hb⟩ := Option.isSome_iff_exists.mp (hbefore j hj)
    exact ⟨b, memRead_of_read (by omega) hb⟩
  have herror := memRead_of_unwritten (s := s) (k := k) (by omega) hnone
  obtain rfl | rfl | rfl : k = 0 ∨ k = 1 ∨ k = 2 := by omega
  · rw [validate, if_neg hlong, herror]
    rfl
  · obtain ⟨addr, h0⟩ := hread 0 (by decide)
    rw [validate, if_neg hlong, h0, herror]
    rfl
  · obtain ⟨addr, h0⟩ := hread 0 (by decide)
    obtain ⟨func, h1⟩ := hread 1 (by decide)
    rw [validate, if_neg hlong, h0, h1, herror]
    rfl

/-- A validation of a long enough frame depends on BUF alone. -/
theorem validate_congr_of_long {s t : State} (hb : t.buf = s.buf) (hs : 11 ≤ s.len.toNat) (ht : 11 ≤ t.len.toNat) :
    validate t = validate s := by
  have hs' : ¬ s.len.toNat < Config.minLen := Nat.not_lt.mpr hs
  have ht' : ¬ t.len.toNat < Config.minLen := Nat.not_lt.mpr ht
  simp [validate, hs', ht', memRead_congr hb]

/-- A decode whose validation faults. -/
theorem execUnpDecode_of_validate_error {s : State} {f : Fault} (h : validate s = .error f) :
    execUnpDecode s = .fault f := by
  rw [execUnpDecode, h]
  rfl

/-- A decode whose frame validates and one of whose registers faults. -/
theorem execUnpDecode_of_values_error {s : State} {f : Fault} (hok : validate s = .ok .ok)
    (h : frameValues s = .error f) : execUnpDecode s = .fault f := by
  rw [execUnpDecode, hok, orFault_ok, h]
  rfl

/-- A decode completes when the validation comes to an outcome and the registers are there. -/
theorem execUnpDecode_of_ok {s : State} {d : DStat} {v : ValFile} (hd : validate s = .ok d)
    (hv : frameValues s = .ok v) : ∃ t, execUnpDecode s = .next t := by
  rw [execUnpDecode, hd, hv]
  cases d <;> exact ⟨_, rfl⟩

/-- A decode of a frame that is too short. -/
theorem execUnpDecode_of_short {s : State} (h : s.len.toNat < 11) :
    execUnpDecode s = .next { s with dstat := .incomplete } := by
  rw [execUnpDecode, validate_of_short h]
  rfl

/-- Settles O29: the first unwritten cell is a header cell, and the validation faults on it, or the header is right, and
the register it belongs to faults on it. -/
theorem unpDecodeFaultsOnAnUnwrittenCell : Obligations.UnpDecodeFaultsOnAnUnwrittenCell := by
  intro s k hl hlt hnone hbefore hheader
  show execUnpDecode s = .fault (.unwrittenCell k)
  by_cases hk : k ≤ 2
  · exact execUnpDecode_of_validate_error (validate_of_unwritten hl hk hnone hbefore)
  · obtain ⟨h0, h1, h2⟩ := hheader.resolve_left hk
    exact execUnpDecode_of_values_error (validate_of_header hl h0 h1 h2)
      (frameValues_of_unwritten (by omega) hlt hnone hbefore)

end Sys2Proof.Machine
end

section
/-! The invariant: reset meets it, every edge keeps it, and a reset block that meets it never stops. -/

namespace Sys2Proof.Machine

/-- The invariant says nothing of CRC, RSP, `hasReset` and the edges still to come. -/
theorem State.Inv.outside {s : State} (h : s.Inv) (c r : Word) (b : Bool) (edges : List PortEdge) :
    State.Inv { s with crc := c, rsp := r, hasReset := b, inputs := edges } :=
  ⟨h.bufCanonical, h.pushedWritten, h.noErrNoCause, h.errHasCause, h.okFresh, h.badHeaderFresh⟩

/-- Any legal error record may take the place of the one that is there (10_state.md R21, 60_exceptions.md R90). -/
theorem State.Inv.withErrorRecord {s : State} (h : s.Inv) {e : Bool} {c : ECause} (hnone : e = false → c = .none)
    (hcause : e = true → c = .undefinedOpcode ∨ c = .badOperand) : State.Inv { s with err := e, ecause := c } :=
  ⟨h.bufCanonical, h.pushedWritten, hnone, hcause, h.okFresh, h.badHeaderFresh⟩

theorem State.Inv.ecause_ne_reserved {s : State} (h : s.Inv) : s.ecause ≠ .reserved := by
  intro hc
  cases he : s.err with
  | false => simp [h.noErrNoCause he] at hc
  | true => simpa [hc] using h.errHasCause he

/-- All eleven cells of a long enough frame have been written. -/
theorem State.Inv.written_of_long {s : State} (h : s.Inv) (hl : 11 ≤ s.len.toNat) :
    ∀ k < 11, (Memory.read s.buf k).isSome = true :=
  fun k hk => h.pushedWritten k hk (by omega)

/-- A frame DSTAT speaks of is long enough. -/
theorem State.Inv.long_of_validated {s : State} (h : s.Inv) (hd : s.dstat = .ok ∨ s.dstat = .badHeader) :
    11 ≤ s.len.toNat :=
  hd.elim (fun hok => (h.okFresh hok).1) (fun hbad => (h.badHeaderFresh hbad).1)

/-- Settles O50: every clause is about a reset value. -/
theorem resetMeetsTheInvariant : Obligations.ResetMeetsTheInvariant where
  bufCanonical := Memory.wf_nil
  pushedWritten k _ hk := absurd hk (Nat.not_lt_zero k)
  noErrNoCause _ := State.reset_ecause
  errHasCause h := by simp at h
  okFresh h := by simp at h
  badHeaderFresh h := by simp at h

/-- An illegal word records a legal cause, or leaves the one that is there. -/
theorem raiseCmdError_keeps_inv {s : State} (h : s.Inv) (c : IllegalCause) : (raiseCmdError c s).Inv := by
  rw [raiseCmdError_eq]
  refine h.withErrorRecord (by simp) fun _ => ?_
  cases he : s.err with
  | false => exact causeCode_legal c
  | true => exact h.errHasCause he

/-- A push writes the next cell while there is one, and past the eleventh touches neither BUF nor what a decode says. -/
theorem execUnpPush_keeps_inv {s t : State} {b : Byte} (h : s.Inv) (hpush : execUnpPush b s = .next t) : t.Inv := by
  rw [execUnpPush_eq] at hpush
  have hlen := satInc_toNat s.len
  cases hp : pushIndex s with
  | none =>
    have hl := pushIndex_none hp
    have hwritten := h.written_of_long hl
    rw [hp] at hpush
    obtain rfl := Host.Outcome.next.inj hpush
    have hlong : 11 ≤ (satInc s.len).toNat := by omega
    have hvalidate : validate { s with len := satInc s.len } = validate s := validate_congr_of_long rfl hl hlong
    exact {
      bufCanonical := h.bufCanonical
      pushedWritten := fun k hk _ => hwritten k hk
      noErrNoCause := h.noErrNoCause
      errHasCause := h.errHasCause
      okFresh := fun hd => by
        obtain ⟨-, hok, hval⟩ := h.okFresh hd
        exact ⟨hlong, hvalidate.trans hok, hval⟩
      badHeaderFresh := fun hd => by
        obtain ⟨-, hbad⟩ := h.badHeaderFresh hd
        exact ⟨hlong, hvalidate.trans hbad⟩ }
  | some k =>
    obtain ⟨rfl, hk⟩ := pushIndex_some hp
    rw [hp] at hpush
    obtain rfl := Host.Outcome.next.inj hpush
    have hshort : ¬ 11 ≤ s.len.toNat := by omega
    exact {
      bufCanonical := Memory.wf_write b (Nat.lt_succ_of_le hk) h.bufCanonical
      pushedWritten := fun j hj hjl => by
        by_cases hjk : j = s.len.toNat
        · simp [hjk, Memory.read_write_same]
        · simp only [Memory.read_write_other _ _ hjk]
          exact h.pushedWritten j hj (by simp only at hjl; omega)
      noErrNoCause := h.noErrNoCause
      errHasCause := h.errHasCause
      okFresh := fun hd => absurd (h.long_of_validated (.inl hd)) hshort
      badHeaderFresh := fun hd => absurd (h.long_of_validated (.inr hd)) hshort }

/-- A decode leaves in DSTAT, and on OK in VAL, what it found in the frame. -/
theorem execUnpDecode_keeps_inv {s t : State} (h : s.Inv) (hdecode : execUnpDecode s = .next t) : t.Inv := by
  obtain ⟨v, hok, hv, rfl⟩ | ⟨d, hnok, -, hd, rfl⟩ := execUnpDecode_next hdecode
  · have hl : 11 ≤ s.len.toNat := by simpa using validate_ok_cases hok
    exact ⟨h.bufCanonical, h.pushedWritten, h.noErrNoCause, h.errHasCause, fun _ => ⟨hl, hok, hv⟩, by simp⟩
  · refine ⟨h.bufCanonical, h.pushedWritten, h.noErrNoCause, h.errHasCause, fun e => absurd e hnok, fun e => ?_⟩
    have hbad : d = .badHeader := e
    exact ⟨by simpa [hbad] using validate_ok_cases hd, hbad ▸ hd⟩

/-- Every command that completes keeps the invariant. -/
theorem exec_keeps_inv {i : Instr} {s t : State} (h : s.Inv) (hexec : exec i s = .next t) : t.Inv := by
  have hnext := exec_next hexec
  cases i with
  | nop => exact hnext ▸ h
  | crcInit => exact hnext ▸ h.outside _ _ _ _
  | crcByte b => exact hnext ▸ h.outside _ _ _ _
  | crcRead => exact hnext ▸ h.outside _ _ _ _
  | unpClear =>
    rw [show t = { s with len := 0x00#8, dstat := .none } from hnext]
    exact ⟨h.bufCanonical, fun k _ hk => absurd hk (Nat.not_lt_zero k), h.noErrNoCause, h.errHasCause,
      by simp, by simp⟩
  | unpPush b => exact execUnpPush_keeps_inv h hexec
  | unpDecode => exact execUnpDecode_keeps_inv h hexec
  | unpRead k => exact hnext ▸ h.outside _ _ _ _
  | statRead =>
    obtain ⟨-, rfl⟩ := hnext
    exact h.outside _ _ _ _
  | errClear => exact hnext ▸ h.withErrorRecord (fun _ => rfl) (by simp)

/-- Every edge keeps the invariant. -/
theorem step_keeps_inv {s t : State} (h : s.Inv) (hstep : step s = .next t) : t.Inv := by
  have hpassed : State.Inv { s with inputs := s.inputs.tail } := h.outside _ _ _ _
  obtain ⟨-, rfl⟩ | rfl | ⟨i, -, hexec⟩ | ⟨w, c, -, -, rfl⟩ := step_next_presented hstep
  · exact State.Inv.outside resetMeetsTheInvariant _ _ _ _
  · exact hpassed
  · exact exec_keeps_inv hpassed hexec
  · exact raiseCmdError_keeps_inv hpassed c

/-- A block that has been reset stays so. -/
theorem step_keeps_hasReset {s t : State} (h : s.hasReset = true) (hstep : step s = .next t) : t.hasReset = true := by
  obtain ⟨-, rfl⟩ | rfl | ⟨i, -, hexec⟩ | ⟨w, c, -, -, rfl⟩ := step_next_presented hstep
  · rfl
  · exact h
  · exact (exec_onlyWriters hexec).hasReset.trans h
  · exact (raiseCmdError_hasReset c _).trans h

/-- A decode completes under the invariant: the frame is too short, or every cell it reads has been written
(20_memory.md R36). -/
theorem execUnpDecode_completes {s : State} (h : s.Inv) : ∃ t, execUnpDecode s = .next t := by
  by_cases hl : s.len.toNat < 11
  · exact ⟨_, execUnpDecode_of_short hl⟩
  · have hwritten := h.written_of_long (by omega)
    obtain ⟨d, hd⟩ := validate_of_written (by omega) fun k hk => hwritten k (by omega)
    obtain ⟨v, hv⟩ := frameValues_of_written hwritten
    exact execUnpDecode_of_ok hd hv

/-- Every command completes under the invariant. -/
theorem exec_completes {s : State} (h : s.Inv) (i : Instr) : ∃ t, exec i s = .next t := by
  cases i with
  | unpPush b => exact ⟨_, execUnpPush_eq b s⟩
  | unpDecode => exact execUnpDecode_completes h
  | statRead => exact ⟨_, execStatRead_eq h.ecause_ne_reserved⟩
  | _ => exact ⟨_, rfl⟩

/-- Every word a reset block accepts completes under the invariant: a command, or the record of an error. -/
theorem acceptWord_completes {s : State} (h : s.Inv) (hr : s.hasReset = true) (w : Word) :
    ∃ t, acceptWord w s = .next t := by
  rw [acceptWord, if_pos hr]
  cases decode w with
  | cmd i => exact exec_completes h i
  | illegal c => exact ⟨_, rfl⟩

/-- Every edge of a reset block completes under the invariant. -/
theorem step_completes {s : State} (h : s.Inv) (hr : s.hasReset = true) : ∃ t, step s = .next t := by
  have hpassed : (passEdge s).Inv := h.outside _ _ _ _
  rw [step]
  obtain ⟨rst, valid, w⟩ := presentedEdge s
  cases rst with
  | true => exact ⟨_, clockEdge_reset valid w _⟩
  | false =>
    cases valid with
    | false => exact ⟨_, clockEdge_idle w _⟩
    | true => exact acceptWord_completes hpassed hr w

/-- Settles O53, by induction on the number of edges: every edge completes and keeps the invariant. -/
theorem noStopOnceReset : Obligations.NoStopOnceReset := by
  intro n
  induction n with
  | zero => exact fun s h hr => ⟨s, rfl, h, hr⟩
  | succ n ih =>
    intro s h hr
    obtain ⟨t, hstep⟩ := step_completes h hr
    rw [runEdges_of_step hstep]
    exact ih t (step_keeps_inv h hstep) (step_keeps_hasReset hr hstep)

end Sys2Proof.Machine
end

section
/-! The reset values, and the reserved cause. -/

namespace Sys2Proof.Machine

/-- A value file that holds one word everywhere reads as that word at every index. -/
theorem valAt_const (v : Word) (i : BitVec 2) : valAt ⟨v, v, v, v⟩ i = v := by
  unfold valAt
  split_ifs <;> rfl

/-- Settles O15: State.reset is written with these values, and its four VAL registers hold the same one. -/
theorem resetStateHoldsTheResetValues : Obligations.ResetStateHoldsTheResetValues :=
  ⟨State.reset_crc, State.reset_len, fun k => (congrArg (valAt · k) State.reset_val).trans (valAt_const _ k),
    congrArg dstatCode State.reset_dstat, State.reset_err, congrArg ecauseCode State.reset_ecause, State.reset_rsp⟩

/-- Settles O37: it is the one case in which STAT_READ does not complete. -/
theorem statReadFaultsOnTheReservedCause : Obligations.StatReadFaultsOnTheReservedCause := by
  intro s hc
  show execStatRead s = .fault .reservedCause
  rw [execStatRead, hc]

end Sys2Proof.Machine
end

section
/-! A command's word decodes to the command (30_encoding.md R54, R55, R58). -/

namespace Sys2Proof

/-- An index with zeros above it is an IMM8 that format I takes for that index. -/
theorem decodeI_index (k : BitVec 2) (mk : BitVec 2 → Instr) : decodeI (0#6 ++ k) mk = .cmd (mk k) := by
  have hupper : (0#6 ++ k).extractLsb' 2 6 = 0#6 := by revert k; decide
  have hindex : (0#6 ++ k).extractLsb' 0 2 = k := by revert k; decide
  rw [decodeI, if_pos hupper, hindex]

theorem decode_encode (i : Instr) : decode (encode i) = .cmd i := by
  cases i with
  | crcByte b => rw [encode, decode_op_crcByte (opField_append _ _), immField_append]
  | unpPush b => rw [encode, decode_op_unpPush (opField_append _ _), immField_append]
  | unpRead k => rw [encode, decode_op_unpRead (opField_append _ _), immField_append, decodeI_index]
  | _ => rfl

end Sys2Proof
end

section
/-! Commands run one after another by their meanings alone, and the edges that present them: a claim about a run of
issued commands is one about `execAll`. -/

namespace Sys2Proof.Machine

/-- The meanings of the commands, one after another, stopping at a stop. -/
def execAll : List Instr → State → Result
  | [], s => .next s
  | i :: rest, s =>
    match exec i s with
    | .next t => execAll rest t
    | .fault f => .fault f
    | .refused r => .refused r

@[simp] theorem execAll_nil (s : State) : execAll [] s = .next s := rfl

theorem execAll_cons_of_next {i : Instr} {p : List Instr} {s t : State} (h : exec i s = .next t) :
    execAll (i :: p) s = execAll p t := by rw [execAll, h]

/-- Commands that complete gave a next state at the first of them. -/
theorem execAll_cons_next {i : Instr} {p : List Instr} {s t : State} (h : execAll (i :: p) s = .next t) :
    ∃ u, exec i s = .next u ∧ execAll p u = .next t := by
  rw [execAll] at h
  cases hi : exec i s <;> simp [hi] at h
  exact ⟨_, rfl, h⟩

/-- The edge of a command on a reset block is the command's meaning. -/
theorem step_command {i : Instr} {s : State} {rest : List PortEdge} (hs : s.hasReset = true)
    (hin : s.inputs = commandEdge (encode i) :: rest) : step s = exec i { s with inputs := rest } := by
  rw [step_cons hin, commandEdge, clockEdge_accept, acceptWord_cmd hs (decode_encode i)]

/-- The edges that present commands to a reset block run their meanings, and leave the edges after them
(30_encoding.md R51, 70_reset_and_hazards.md R114). -/
theorem runEdges_commandEdges {p : List Instr} {s t : State} {rest : List PortEdge} (hs : s.hasReset = true)
    (hin : s.inputs = commandEdges p ++ rest) (h : execAll p { s with inputs := rest } = .next t) :
    runEdges p.length s = .next t := by
  induction p generalizing s with
  | nil =>
    have hsame : { s with inputs := rest } = s := by rw [← show s.inputs = rest from hin]
    rwa [hsame] at h
  | cons i p ih =>
    obtain ⟨u, hu, h⟩ := execAll_cons_next h
    obtain ⟨hleft, hexec⟩ := exec_inputs hu (commandEdges p ++ rest)
    have hstep : step s = .next { u with inputs := commandEdges p ++ rest } := (step_command hs hin).trans hexec
    have hsame : { u with inputs := rest } = u := by rw [← show u.inputs = rest from hleft]
    rw [List.length_cons, runEdges_of_step hstep]
    exact ih (step_keeps_hasReset hs hstep) rfl (by simpa only [hsame] using h)

end Sys2Proof.Machine
end

section
/-! Pushes one after another: each byte goes to the cell after the last until the cells are used up, and LEN counts them
all up to 255 (20_memory.md R34, R37). -/

namespace Sys2Proof.Machine

/-- `t` is `s` after the bytes have been pushed in order. -/
structure Pushed (bytes : List Byte) (s t : State) : Prop where
  /-- LEN counts the bytes and stays at 255 (R37). -/
  len : t.len.toNat = min (s.len.toNat + bytes.length) 255
  /-- The bytes are in the cells from LEN on, as far as there are cells (R34). -/
  stored : ∀ k < 11, s.len.toNat ≤ k → k < s.len.toNat + bytes.length →
    Memory.read t.buf k = bytes[k - s.len.toNat]?
  /-- Every other cell reads as before. -/
  kept : ∀ k, 11 ≤ k ∨ k < s.len.toNat ∨ s.len.toNat + bytes.length ≤ k → Memory.read t.buf k = Memory.read s.buf k
  /-- Nothing but BUF and LEN changes. -/
  frame : t = { s with buf := t.buf, len := t.len }

theorem Pushed.refl (s : State) : Pushed [] s s where
  len := (Nat.min_eq_left (Nat.le_of_lt_succ s.len.isLt)).symm
  stored _ _ hlo hhi := absurd hhi (Nat.not_lt.mpr hlo)
  kept _ _ := rfl
  frame := rfl

/-- One push (41_unpack.md R75). -/
theorem pushed_of_execUnpPush {b : Byte} {s t : State} (h : exec (.unpPush b) s = .next t) : Pushed [b] s t := by
  have hlen := satInc_toNat s.len
  have hnext := exec_next h
  dsimp only at hnext
  subst hnext
  cases hp : pushIndex s with
  | none =>
    have hl := pushIndex_none hp
    exact ⟨hlen, fun k hk hlo _ => by omega, fun _ _ => rfl, rfl⟩
  | some n =>
    obtain ⟨rfl, hn⟩ := pushIndex_some hp
    refine ⟨hlen, fun k _ hlo hhi => ?_, fun k hk => ?_, rfl⟩
    · obtain rfl : k = s.len.toNat := Nat.le_antisymm (Nat.le_of_lt_succ hhi) hlo
      simp [Memory.read_write_same]
    · exact Memory.read_write_other _ _ (by rw [List.length_singleton] at hk; omega)

/-- Pushes of two sequences are pushes of the one after the other. -/
theorem Pushed.append {p q : List Byte} {s u t : State} (hp : Pushed p s u) (hq : Pushed q u t) :
    Pushed (p ++ q) s t := by
  have hlen := hp.len
  refine ⟨?_, fun k hk hlo hhi => ?_, fun k hk => ?_, ?_⟩
  · rw [hq.len, List.length_append]
    omega
  · rw [List.length_append] at hhi
    by_cases hfirst : k < s.len.toNat + p.length
    · rw [hq.kept k (by omega), hp.stored k hk hlo hfirst, List.getElem?_append_left (by omega)]
    · rw [hq.stored k hk (by omega) (by omega), List.getElem?_append_right (by omega)]
      congr 1
      omega
  · rw [List.length_append] at hk
    rw [hq.kept k (by omega), hp.kept k (by omega)]
  · have hframe := hq.frame
    rw [hp.frame] at hframe
    exact hframe

/-- UNP_PUSHes of any bytes complete from every state. -/
theorem execAll_pushes (bytes : List Byte) (s : State) :
    ∃ t, execAll (bytes.map .unpPush) s = .next t ∧ Pushed bytes s t := by
  induction bytes generalizing s with
  | nil => exact ⟨s, rfl, .refl s⟩
  | cons b bytes ih =>
    have hpush : exec (.unpPush b) s = .next _ := execUnpPush_eq b s
    obtain ⟨t, hrun, ht⟩ := ih _
    exact ⟨t, (execAll_cons_of_next hpush).trans hrun, (pushed_of_execUnpPush hpush).append ht⟩

/-- UNP_FRAME completes from every state: its pushes start at LEN = 0 (30_encoding.md R61). -/
theorem execAll_unpFrame (bytes : List Byte) (s : State) :
    ∃ t, execAll (unpFrame bytes) s = .next t ∧ Pushed bytes { s with len := 0x00#8, dstat := .none } t := by
  have hclear : exec .unpClear s = .next { s with len := 0x00#8, dstat := .none } := rfl
  rw [unpFrame, execAll_cons_of_next hclear]
  exact execAll_pushes bytes _

end Sys2Proof.Machine
end

section
/-! A command that is issued again (20_memory.md R44). -/

namespace Sys2Proof.Machine

/-- A decode whose frame validates and whose registers are there. -/
theorem execUnpDecode_of_values {s : State} {v : ValFile} (hok : validate s = .ok .ok)
    (hv : frameValues s = .ok v) : execUnpDecode s = .next { s with dstat := .ok, val := v } := by
  rw [execUnpDecode, hok, orFault_ok, hv]
  rfl

/-- A decode whose frame does not validate. -/
theorem execUnpDecode_of_failure {s : State} {d : DStat} (hd : validate s = .ok d) (hne : d ≠ .ok) :
    execUnpDecode s = .next { s with dstat := d } := by
  rw [execUnpDecode, hd, orFault_ok]
  cases d with
  | ok => contradiction
  | _ => rfl

/-- A decode reads BUF and LEN and writes neither, so a second one finds what the first found. -/
theorem execUnpDecode_again {s t : State} (h : execUnpDecode s = .next t) : execUnpDecode t = .next t := by
  obtain ⟨v, hok, hv, rfl⟩ | ⟨d, hne, -, hd, rfl⟩ := execUnpDecode_next h
  · exact execUnpDecode_of_values ((validate_congr rfl rfl).trans hok) ((frameValues_congr rfl).trans hv)
  · exact execUnpDecode_of_failure ((validate_congr rfl rfl).trans hd) hne

/-- A status read leaves all that STAT is made of. -/
theorem execStatRead_again {s t : State} (h : execStatRead s = .next t) : execStatRead t = .next t := by
  obtain ⟨hc, rfl⟩ := execStatRead_next h
  exact execStatRead_eq (s := { s with rsp := statWord s }) hc

end Sys2Proof.Machine
end

section
/-! The obligations on the block's memory. -/

namespace Sys2Proof.Machine

/-- Settles O51: reset establishes the invariant, an idle edge and an error leave it, and every command keeps it. -/
theorem everyEdgeKeepsTheInvariant : Obligations.EveryEdgeKeepsTheInvariant :=
  fun _ _ => step_keeps_inv

/-- Settles O27: the clear sets LEN to 0, so the pushes fill the cells from cell 0 on. -/
theorem framePushesFillTheBufferInOrder : Obligations.FramePushesFillTheBufferInOrder := by
  intro s bytes rest hs hin
  obtain ⟨t, hexec, hpushed⟩ := execAll_unpFrame bytes { s with inputs := rest }
  have hlength : (unpFrame bytes).length = bytes.length + 1 := by simp [unpFrame]
  refine ⟨t, hlength ▸ runEdges_commandEdges hs hin hexec, ?_, fun k hk hb => ?_, fun k hk => ?_, hpushed.frame⟩
  · simpa using hpushed.len
  · simpa using hpushed.stored k hk (Nat.zero_le k) (by simpa using hb)
  · exact hpushed.kept k (by simpa using hk)

/-- Settles O48: what a command other than CRC_BYTE and UNP_PUSH writes does not depend on what it writes. -/
theorem repeatableCommandsAreIdempotent : Obligations.RepeatableCommandsAreIdempotent := by
  refine ⟨fun i s t hcrc hpush h => ?_, fun i s t hread h => ?_⟩
  · have hnext := exec_next h
    cases i with
    | crcByte b => exact absurd rfl (hcrc b)
    | unpPush b => exact absurd rfl (hpush b)
    | unpDecode => exact execUnpDecode_again h
    | statRead => exact execStatRead_again h
    | _ => dsimp only at hnext; subst hnext; rfl
  · have hnext := exec_next h
    obtain rfl | rfl | ⟨k, rfl⟩ := hread
    · exact hnext ▸ rfl
    · obtain ⟨-, rfl⟩ := hnext
      rfl
    · exact hnext ▸ rfl

end Sys2Proof.Machine
end

section
/-! Which words are legal, and which error an illegal one is: the format of its OP and what that format admits decide it
(30_encoding.md R53, R56, R57). -/

namespace Sys2Proof

/-- The OPs of format Z (R54). -/
abbrev formatZOps : List Byte := [0x00#8, 0x01#8, 0x03#8, 0x10#8, 0x12#8, 0x20#8, 0x21#8]

theorem opFormat_eq_none_iff (op : Byte) : opFormat op = none ↔ op ∉ definedOps := by
  revert op; decide

theorem opFormat_eq_z_iff (op : Byte) : opFormat op = some .z ↔ op ∈ formatZOps := by
  revert op; decide

theorem opFormat_eq_b_iff (op : Byte) : opFormat op = some .b ↔ op = 0x02#8 ∨ op = 0x11#8 := by
  revert op; decide

theorem opFormat_eq_i_iff (op : Byte) : opFormat op = some .i ↔ op = 0x13#8 := by
  revert op; decide

theorem admits_z_iff (imm : Byte) : Format.z.admits imm = true ↔ imm = 0x00#8 := beq_iff_eq

theorem admits_i_iff (imm : Byte) : Format.i.admits imm = true ↔ imm.toNat ≤ 3 := decide_eq_true_iff

theorem wellFormedFields_iff (op imm : Byte) :
    wellFormedFields op imm = true ↔ ∃ f, opFormat op = some f ∧ f.admits imm = true := by
  unfold wellFormedFields
  cases opFormat op <;> simp

/-- Every OP of format Z is decoded by `decodeZ`, each to its own command. -/
theorem decode_of_formatZ {w : Word} (h : opFormat (opField w) = some .z) :
    ∃ i, decode w = decodeZ (immField w) i := by
  have hop := (opFormat_eq_z_iff _).mp h
  simp only [List.mem_cons, List.not_mem_nil, or_false] at hop
  obtain hop | hop | hop | hop | hop | hop | hop := hop
  · exact ⟨_, decode_op_nop hop⟩
  · exact ⟨_, decode_op_crcInit hop⟩
  · exact ⟨_, decode_op_crcRead hop⟩
  · exact ⟨_, decode_op_unpClear hop⟩
  · exact ⟨_, decode_op_unpDecode hop⟩
  · exact ⟨_, decode_op_statRead hop⟩
  · exact ⟨_, decode_op_errClear hop⟩

theorem decode_of_noFormat {w : Word} (h : opFormat (opField w) = none) : decode w = .illegal .undefinedOpcode :=
  decode_op_undefined ((opFormat_eq_none_iff _).mp h)

theorem decode_of_admits {w : Word} {f : Format} (hf : opFormat (opField w) = some f)
    (h : f.admits (immField w) = true) : ∃ i, decode w = .cmd i := by
  cases f with
  | z =>
    obtain ⟨i, hi⟩ := decode_of_formatZ hf
    exact ⟨i, by rw [hi, (admits_z_iff _).mp h, decodeZ_zero]⟩
  | b =>
    obtain hop | hop := (opFormat_eq_b_iff _).mp hf
    · exact ⟨_, decode_op_crcByte hop⟩
    · exact ⟨_, decode_op_unpPush hop⟩
  | i =>
    rw [decode_op_unpRead ((opFormat_eq_i_iff _).mp hf), decodeI_le ((admits_i_iff _).mp h)]
    exact ⟨_, rfl⟩

theorem decode_of_not_admits {w : Word} {f : Format} (hf : opFormat (opField w) = some f)
    (h : f.admits (immField w) ≠ true) : decode w = .illegal .badOperand := by
  cases f with
  | z =>
    obtain ⟨i, hi⟩ := decode_of_formatZ hf
    rw [hi, decodeZ_nonzero (mt (admits_z_iff _).mpr h)]
  | b => exact absurd rfl h
  | i =>
    rw [decode_op_unpRead ((opFormat_eq_i_iff _).mp hf),
      decodeI_gt (Nat.lt_of_not_le (mt (admits_i_iff _).mpr h))]

/-- What a word decodes to, by the format of its OP: an undefined opcode, a command, or a bad operand, and only one
of these (30_encoding.md R58). -/
theorem decode_trichotomy (w : Word) :
    (opFormat (opField w) = none ∧ decode w = .illegal .undefinedOpcode) ∨
    ∃ f, opFormat (opField w) = some f ∧
      ((f.admits (immField w) = true ∧ ∃ i, decode w = .cmd i) ∨
       (f.admits (immField w) ≠ true ∧ decode w = .illegal .badOperand)) := by
  cases hf : opFormat (opField w) with
  | none => exact .inl ⟨rfl, decode_of_noFormat hf⟩
  | some f =>
    refine .inr ⟨f, rfl, ?_⟩
    by_cases h : f.admits (immField w) = true
    · exact .inl ⟨h, decode_of_admits hf h⟩
    · exact .inr ⟨h, decode_of_not_admits hf h⟩

theorem decode_eq_undefinedOpcode_iff (w : Word) :
    decode w = .illegal .undefinedOpcode ↔ opFormat (opField w) = none := by
  refine ⟨fun h => ?_, decode_of_noFormat⟩
  obtain ⟨hf, -⟩ | ⟨f, -, ⟨-, i, hi⟩ | ⟨-, hbad⟩⟩ := decode_trichotomy w
  · exact hf
  · simp [hi] at h
  · simp [hbad] at h

theorem decode_eq_badOperand_iff (w : Word) :
    decode w = .illegal .badOperand ↔ ∃ f, opFormat (opField w) = some f ∧ f.admits (immField w) ≠ true := by
  refine ⟨fun h => ?_, fun ⟨f, hf, h⟩ => decode_of_not_admits hf h⟩
  obtain ⟨-, hu⟩ | ⟨f, hf, ⟨-, i, hi⟩ | ⟨hbad, -⟩⟩ := decode_trichotomy w
  · simp [hu] at h
  · simp [hi] at h
  · exact ⟨f, hf, hbad⟩

theorem decode_eq_cmd_iff (w : Word) :
    (∃ i, decode w = .cmd i) ↔ wellFormedFields (opField w) (immField w) = true := by
  rw [wellFormedFields_iff]
  refine ⟨fun ⟨i, h⟩ => ?_, fun ⟨f, hf, h⟩ => decode_of_admits hf h⟩
  obtain ⟨-, hu⟩ | ⟨f, hf, ⟨hadmits, -⟩ | ⟨-, hbad⟩⟩ := decode_trichotomy w
  · simp [hu] at h
  · exact ⟨f, hf, hadmits⟩
  · simp [hbad] at h

/-- Of the numbers below `n`, all but the members of `l` are left. -/
theorem length_filter_notMem_range {n : Nat} {l : List Nat} (hnodup : l.Nodup) (hlt : ∀ a ∈ l, a < n) :
    ((List.range n).filter (fun a => decide (a ∉ l))).length = n - l.length := by
  have hsub : l.toFinset ⊆ Finset.range n := fun a ha => Finset.mem_range.mpr (hlt a (List.mem_toFinset.mp ha))
  calc ((List.range n).filter (fun a => decide (a ∉ l))).length
      = (Finset.range n \ l.toFinset).card := by
        rw [← Finset.filter_notMem_eq_sdiff]
        simp only [List.mem_toFinset]
        rfl
    _ = n - l.length := by
        rw [Finset.card_sdiff_of_subset hsub, Finset.card_range, List.toFinset_card_of_nodup hnodup]

/-- The undefined opcodes by number: the upper eight bits are none of the ten defined values (R56). -/
theorem decode_eq_undefinedOpcode_iff_number (w : Word) :
    decode w = .illegal .undefinedOpcode ↔
      w.toNat / 256 ∉ [0x00, 0x01, 0x02, 0x03, 0x10, 0x11, 0x12, 0x13, 0x20, 0x21] := by
  rw [decode_eq_undefinedOpcode_iff, opFormat_eq_none_iff, ← opField_toNat]
  exact not_congr (List.mem_map_of_injective BitVec.toNat_injective).symm

/-- The bad operands by number (R57). -/
theorem decode_eq_badOperand_iff_number (w : Word) :
    decode w = .illegal .badOperand ↔
      (w.toNat / 256 ∈ [0x00, 0x01, 0x03, 0x10, 0x12, 0x20, 0x21] ∧ w.toNat % 256 ≠ 0) ∨
      (w.toNat / 256 = 0x13 ∧ 3 < w.toNat % 256) := by
  have hz : opFormat (opField w) = some .z ↔ w.toNat / 256 ∈ [0x00, 0x01, 0x03, 0x10, 0x12, 0x20, 0x21] := by
    rw [opFormat_eq_z_iff, ← opField_toNat]
    exact (List.mem_map_of_injective BitVec.toNat_injective).symm
  have hi : opFormat (opField w) = some .i ↔ w.toNat / 256 = 0x13 := by
    rw [opFormat_eq_i_iff, ← opField_toNat, ← BitVec.toNat_inj]
    rfl
  have hzero : Format.z.admits (immField w) = true ↔ w.toNat % 256 = 0 := by
    rw [admits_z_iff, ← immField_toNat, ← BitVec.toNat_inj]
    rfl
  rw [decode_eq_badOperand_iff, ← hz, ← hi, Ne, ← hzero, ← Nat.not_le, ← immField_toNat, ← admits_i_iff]
  refine ⟨fun ⟨f, hf, h⟩ => ?_, ?_⟩
  · cases f with
    | z => exact .inl ⟨hf, h⟩
    | b => exact absurd rfl h
    | i => exact .inr ⟨hf, h⟩
  · rintro (⟨hf, h⟩ | ⟨hf, h⟩) <;> exact ⟨_, hf, h⟩

end Sys2Proof
end

section
/-! The rows of the opcode map (30_encoding.md R54): the mask of a row keeps all of OP, and of IMM8 the bits that the
format of the row's OP wants zero. -/

namespace Sys2Proof

/-- The bits of IMM8 that a format wants zero (R53). -/
def Format.zeroBits : Format → Byte
  | .z => 0xFF#8
  | .b => 0x00#8
  | .i => 0xFC#8

theorem admits_iff_zeroBits (f : Format) (imm : Byte) : f.admits imm = true ↔ imm &&& f.zeroBits = 0x00#8 := by
  cases f <;> revert imm <;> decide

/-- How a row of the map is made from the OP of its command. -/
theorem opcodeRow_shape {r : OpcodeRow} (h : r ∈ opcodeRows) :
    ∃ f, opFormat (opField r.pattern) = some f ∧ r.mask = 0xFF#8 ++ f.zeroBits ∧
      immField r.pattern = 0x00#8 := by
  revert r; decide

/-- The OP of its pattern tells a row from the others. -/
theorem opcodeRow_eq_of_op {r r' : OpcodeRow} (h : r ∈ opcodeRows) (h' : r' ∈ opcodeRows)
    (hop : opField r.pattern = opField r'.pattern) : r = r' := by
  have hpairs : ∀ r ∈ opcodeRows, ∀ r' ∈ opcodeRows, opField r.pattern = opField r'.pattern → r = r' := by decide
  exact hpairs r h r' h' hop

/-- Two words are the same when both their fields are. -/
theorem word_eq_iff (v w : Word) : v = w ↔ opField v = opField w ∧ immField v = immField w := by
  refine ⟨fun h => h ▸ ⟨rfl, rfl⟩, fun ⟨hop, himm⟩ => ?_⟩
  rw [← opField_append_immField v, hop, himm, opField_append_immField]

/-- A row selects the words of its OP whose IMM8 the OP's format admits. -/
theorem selects_iff {r : OpcodeRow} (h : r ∈ opcodeRows) (w : Word) :
    r.selects w = true ↔
      opField w = opField r.pattern ∧ ∃ f, opFormat (opField w) = some f ∧ f.admits (immField w) = true := by
  obtain ⟨f, hf, hmask, himm⟩ := opcodeRow_shape h
  have hopMasked : opField (w &&& r.mask) = opField w := by
    rw [hmask, opField, BitVec.extractLsb'_and]
    exact (congrArg (opField w &&& ·) (opField_append _ _)).trans BitVec.and_allOnes
  have himmMasked : immField (w &&& r.mask) = immField w &&& f.zeroBits := by
    rw [hmask, immField, BitVec.extractLsb'_and]
    exact congrArg (immField w &&& ·) (immField_append _ _)
  rw [OpcodeRow.selects, beq_iff_eq, word_eq_iff, hopMasked, himmMasked, himm, ← admits_iff_zeroBits]
  refine and_congr_right fun hop => ?_
  rw [hop, hf]
  simp

/-- A word that selects a row has legal fields. -/
theorem wellFormedFields_of_selects {r : OpcodeRow} {w : Word} (h : r ∈ opcodeRows) (hsel : r.selects w = true) :
    wellFormedFields (opField w) (immField w) = true :=
  (wellFormedFields_iff _ _).mpr ((selects_iff h w).mp hsel).2

/-- No word selects two rows. -/
theorem opcodeRow_unique {r r' : OpcodeRow} {w : Word} (h : r ∈ opcodeRows) (h' : r' ∈ opcodeRows)
    (hsel : r.selects w = true) (hsel' : r'.selects w = true) : r = r' :=
  opcodeRow_eq_of_op h h' (((selects_iff h w).mp hsel).1.symm.trans ((selects_iff h' w).mp hsel').1)

/-- Every command meets the statement of the family TableRow. -/
theorem tableRow_statement (i : Instr) : Laws.TableRow.Statement i := by
  cases i with
  | nop => exact Laws.TableRow.nop
  | crcInit => exact Laws.TableRow.crcInit
  | crcByte b => exact Laws.TableRow.crcByte b
  | crcRead => exact Laws.TableRow.crcRead
  | unpClear => exact Laws.TableRow.unpClear
  | unpPush b => exact Laws.TableRow.unpPush b
  | unpDecode => exact Laws.TableRow.unpDecode
  | unpRead k => exact Laws.TableRow.unpRead k
  | statRead => exact Laws.TableRow.statRead
  | errClear => exact Laws.TableRow.errClear

/-- A word that decodes to a command selects the row of that command's mnemonic. -/
theorem selects_own_row {w : Word} {i : Instr} (h : decode w = .cmd i) :
    ∃ r ∈ opcodeRows, r.selects w = true ∧ r.mnemonic = i.mnemonic := by
  obtain ⟨-, r, hr, hmnemonic, hsel⟩ := tableRow_statement i
  exact ⟨r, hr, encode_of_decode h ▸ hsel, hmnemonic⟩

end Sys2Proof
end

section
/-! The obligations on the encoding. -/

namespace Sys2Proof

/-- Settles O2, command by command: the word of a command has the command's OP and, with an operand, its IMM8. -/
theorem decodeEncodeRoundTrip : Obligations.DecodeEncodeRoundTrip := decode_encode

/-- Settles O3: under each defined OP, only one IMM8 gives the command. -/
theorem decodedWordIsItsEncoding : Obligations.DecodedWordIsItsEncoding := fun _ _ => encode_of_decode

/-- Settles O4: a row selects the legal words of its OP, and no two rows have the same OP. -/
theorem decodeFollowsTheOpcodeMap : Obligations.DecodeFollowsTheOpcodeMap := by
  refine ⟨fun w => ⟨fun ⟨i, h⟩ => ?_, fun ⟨r, hr, hsel⟩ => ?_⟩, fun _ _ => selects_own_row,
    fun _ _ _ => opcodeRow_unique⟩
  · obtain ⟨r, hr, hsel, -⟩ := selects_own_row h
    exact ⟨r, hr, hsel⟩
  · exact (decode_eq_cmd_iff w).mpr (wellFormedFields_of_selects hr hsel)

/-- Settles O5, from what a word decodes to by the format of its OP. -/
theorem decodeAcceptsExactlyTheLegalFields : Obligations.DecodeAcceptsExactlyTheLegalFields := decode_eq_cmd_iff

/-- Settles O1: the legal words are encodings, and each illegal one has an OP without a format or an IMM8 that its
format does not admit. -/
theorem specWordsDecode : Obligations.SpecWordsDecode :=
  ⟨decode_encode .nop, decode_encode (.crcByte 0x03#8), decode_encode (.unpPush 244#8), decode_encode (.unpRead 3#2),
    decode_encode .errClear, decode_of_not_admits (f := .z) rfl (by decide),
    decode_of_not_admits (f := .i) rfl (by decide), decode_of_noFormat rfl, decode_of_noFormat rfl⟩

end Sys2Proof
end

section
/-! What an edge does by the word it presents: an illegal one records its cause, a legal one runs its command, and an
edge that presents none leaves the block alone (30_encoding.md R51, R62; 60_exceptions.md R90). -/

namespace Sys2Proof.Machine

/-- An edge at which a reset block accepts an illegal word (60_exceptions.md R90). -/
theorem step_illegal {s : State} {w : Word} {rest : List PortEdge} {c : IllegalCause} (hs : s.hasReset = true)
    (hin : s.inputs = ⟨false, true, w⟩ :: rest) (hd : decode w = .illegal c) :
    step s = .next { s with err := true, ecause := if s.err = true then s.ecause else causeCode c, inputs := rest } := by
  rw [step_cons hin, clockEdge_accept, acceptWord_illegal hs hd, raiseCmdError_eq]
  cases s.err <;> rfl

/-- An edge at which a reset block accepts the word of a command (30_encoding.md R51, R58). -/
theorem step_decoded {s : State} {w : Word} {rest : List PortEdge} {i : Instr} (hs : s.hasReset = true)
    (hin : s.inputs = ⟨false, true, w⟩ :: rest) (hd : decode w = .cmd i) :
    step s = exec i { s with inputs := rest } := by
  rw [step_cons hin, clockEdge_accept, acceptWord_cmd hs hd]

theorem decode_of_decodeTableWord {nbits w : Nat} {i : Instr} (h : decodeTableWord nbits w = some i) :
    decode (tableWord nbits w) = .cmd i := by
  unfold decodeTableWord at h
  cases hd : decode (tableWord nbits w) with
  | cmd j => simpa [hd] using h
  | illegal c => simp [hd] at h

end Sys2Proof.Machine
end

section
/-! The words of the pseudo-instructions (30_encoding.md R61). -/

namespace Sys2Proof.Machine

theorem map_encode_crcMsg (bytes : List Byte) :
    (crcMsg bytes).map encode = 0x0100#16 :: bytes.map (fun b => 0x02#8 ++ b) := by
  rw [crcMsg, List.map_cons, List.map_map]
  rfl

theorem map_encode_unpFrame (bytes : List Byte) :
    (unpFrame bytes).map encode = 0x1000#16 :: bytes.map (fun b => 0x11#8 ++ b) := by
  rw [unpFrame, List.map_cons, List.map_map]
  rfl

end Sys2Proof.Machine
end

section
/-! The obligations on illegal words, on the edge and on the assembler's text. -/

namespace Sys2Proof.Machine

/-- Settles O6: exactly the OPs without a format are undefined opcodes, and an illegal word only records its cause. -/
theorem undefinedOpcodes : Obligations.UndefinedOpcodes :=
  ⟨decode_eq_undefinedOpcode_iff_number, length_filter_notMem_range (by decide) (by decide),
    fun _ w _ hs hin h => step_illegal hs hin ((decode_eq_undefinedOpcode_iff_number w).mpr h)⟩

/-- Settles O7: exactly the operands that the format of a defined OP does not admit are bad, and an illegal word only
records its cause. -/
theorem badOperands : Obligations.BadOperands :=
  ⟨decode_eq_badOperand_iff_number,
    fun _ w _ hs hin h => step_illegal hs hin ((decode_eq_badOperand_iff_number w).mpr h)⟩

/-- Settles O8: the edge is accepted, and an accepted word runs the command it decodes to. -/
theorem stepRunsTheDecodedCommand : Obligations.StepRunsTheDecodedCommand := fun _ _ _ _ => step_decoded

/-- Settles O9: the placed word is an accepted edge before all others, and a step takes that edge away again. -/
theorem placedWordRunsNext : Obligations.PlacedWordRunsNext :=
  fun s nbits w _ h => step_decoded (s := s.withFetchWord nbits w) rfl rfl (decode_of_decodeTableWord h)

/-- Settles O11: such an edge is neither a reset nor an acceptance. -/
theorem idleEdgeChangesNothing : Obligations.IdleEdgeChangesNothing := by
  intro s cmd rest hin
  rw [step_cons hin, clockEdge_idle]

/-- Settles O12: with no edge listed the block takes an idle edge, and none is left to take away. -/
theorem nothingPresentedIsIdle : Obligations.NothingPresentedIsIdle := by
  intro s hin
  have hpass : passEdge s = s := by rw [passEdge, hin, List.tail_nil, ← hin]; rfl
  rw [step, presentedEdge_nil hin, hpass, idleEdge, clockEdge_idle]

/-- Settles O55: each line is read by the assembler; the last two have an index out of range and an operand too many. -/
theorem assemblerExamples : Obligations.AssemblerExamples := by
  refine ⟨?_, ?_, ?_, ?_, ?_, ?_, ?_⟩ <;> decide

/-- Settles O56: an expansion is encoded command by command, and the three lines of text are read by the assembler. -/
theorem pseudoInstructionsExpand : Obligations.PseudoInstructionsExpand :=
  ⟨map_encode_crcMsg, map_encode_unpFrame, rfl, by decide, by decide, by decide⟩

end Sys2Proof.Machine
end

section
/-! A bad operand of a format-Z command (30_encoding.md R57, 60_exceptions.md R90). -/

namespace Sys2Proof.Machine

/-- A command without an operand rejects every IMM8 but 0. -/
theorem rejectsOperand_of_formatZ {op imm : Byte} (hop : opFormat op = some .z) (himm : imm ≠ 0x00#8) :
    rejectsOperand op imm := by
  have hbad : decode (op ++ imm) = .illegal .badOperand :=
    decode_of_not_admits (f := .z) (by rwa [opField_append]) (by rwa [immField_append, Ne, admits_z_iff])
  exact ⟨hbad, fun _ _ hs hin => step_illegal hs hin hbad⟩

end Sys2Proof.Machine
end

section
/-! A word by its two bytes: what `zext16`, a shift by a byte and the wire order make of them (20_memory.md R38,
30_encoding.md R55). -/

namespace Sys2Proof.Machine

theorem zext16_eq_append (b : Byte) : zext16 b = 0x00#8 ++ b := BitVec.setWidth_eq_append (by decide)

/-- A zero-extended byte meets only the low byte of a word. -/
theorem xor_zext16 (w : Word) (b : Byte) : w ^^^ zext16 b = opField w ++ (immField w ^^^ b) := by
  conv_lhs => rw [← opField_append_immField w, zext16_eq_append, BitVec.xor_append, BitVec.xor_zero]

theorem shiftRight_byte (w : Word) : w >>> 8 = zext16 (opField w) := by
  apply BitVec.eq_of_toNat_eq
  rw [zext16_eq_append, append_toNat, opField_toNat, BitVec.toNat_ushiftRight, Nat.shiftRight_eq_div_pow]
  simp

/-- The upper byte alone, as a mask. -/
theorem opField_append_zero (w : Word) : opField w ++ 0x00#8 = w &&& 0xFF00#16 := by
  calc opField w ++ 0x00#8 = (opField w ++ immField w) &&& (0xFF#8 ++ 0x00#8) := by
        rw [BitVec.and_append, BitVec.and_zero, show 0xFF#8 = BitVec.allOnes 8 from rfl, BitVec.and_allOnes]
    _ = w &&& 0xFF00#16 := by rw [opField_append_immField]; rfl

/-- The low byte first (R38). -/
theorem wireBytes_eq (w : Word) : wireBytes w = [immField w, opField w] := rfl

theorem opField_eq_ofNat (w : Word) : opField w = BitVec.ofNat 8 (w.toNat / 256) := by
  rw [← opField_toNat, BitVec.ofNat_toNat, BitVec.setWidth_eq]

theorem immField_eq_ofNat (w : Word) : immField w = BitVec.ofNat 8 (w.toNat % 256) := by
  rw [← immField_toNat, BitVec.ofNat_toNat, BitVec.setWidth_eq]

end Sys2Proof.Machine
end

section
/-! The CRC's bit step and byte update (40_crc.md R63). A bit step is linear over XOR, and bit steps over zero bits only
shift; the table form (R68) and the zero residue (R69) follow from these two facts. -/

namespace Sys2Proof.Machine

theorem and_one_ne_zero_iff (c : Word) : c &&& 0x0001#16 ≠ 0#16 ↔ c.getLsbD 0 = true := by
  rw [BitVec.and_one_eq_setWidth_ofBool_getLsbD]
  cases c.getLsbD 0 <;> decide

theorem crcBit_of_one {c : Word} (h : c.getLsbD 0 = true) : crcBit c = (c >>> 1) ^^^ Config.crcPoly := by
  rw [crcBit, if_pos ((and_one_ne_zero_iff c).mpr h)]

theorem crcBit_of_zero {c : Word} (h : c.getLsbD 0 = false) : crcBit c = c >>> 1 := by
  rw [crcBit, if_neg (by rw [and_one_ne_zero_iff, h]; decide)]

/-- The bit step is linear: whether the polynomial is applied is the XOR of whether it is to the two parts. -/
theorem crcBit_xor (c d : Word) : crcBit (c ^^^ d) = crcBit c ^^^ crcBit d := by
  have hlow : (c ^^^ d).getLsbD 0 = (c.getLsbD 0 ^^ d.getLsbD 0) := BitVec.getLsbD_xor
  have hshift : (c ^^^ d) >>> 1 = (c >>> 1) ^^^ (d >>> 1) := BitVec.ushiftRight_xor_distrib c d 1
  cases hc : c.getLsbD 0 <;> cases hd : d.getLsbD 0 <;> rw [hc, hd] at hlow
  · rw [crcBit_of_zero hlow, crcBit_of_zero hc, crcBit_of_zero hd, hshift]
  · rw [crcBit_of_one hlow, crcBit_of_zero hc, crcBit_of_one hd, hshift, BitVec.xor_assoc]
  · rw [crcBit_of_one hlow, crcBit_of_one hc, crcBit_of_zero hd, hshift]
    ac_rfl
  · rw [crcBit_of_zero hlow, crcBit_of_one hc, crcBit_of_one hd, hshift]
    calc (c >>> 1) ^^^ (d >>> 1)
        = (c >>> 1) ^^^ (d >>> 1) ^^^ (Config.crcPoly ^^^ Config.crcPoly) := by
          rw [BitVec.xor_self, BitVec.xor_zero]
      _ = (c >>> 1) ^^^ Config.crcPoly ^^^ ((d >>> 1) ^^^ Config.crcPoly) := by ac_rfl

theorem crcBits_xor (n : Nat) (c d : Word) : crcBits n (c ^^^ d) = crcBits n c ^^^ crcBits n d := by
  induction n generalizing c d with
  | zero => rfl
  | succ n ih => rw [crcBits, crcBit_xor, ih, crcBits, crcBits]

/-- While only zeros are shifted out the polynomial is never applied. -/
theorem crcBits_of_low_zero {n : Nat} {c : Word} (h : ∀ k < n, c.getLsbD k = false) : crcBits n c = c >>> n := by
  induction n generalizing c with
  | zero => rfl
  | succ n ih =>
    have hnext : ∀ k < n, (c >>> 1).getLsbD k = false := fun k hk => by
      rw [BitVec.getLsbD_ushiftRight]
      exact h _ (by omega)
    rw [crcBits, crcBit_of_zero (h 0 n.succ_pos), ih hnext, ← BitVec.shiftRight_add, Nat.add_comm]

theorem crcUpdate_eq_crcBits (c : Word) (b : Byte) : crcUpdate c b = crcBits 8 (c ^^^ zext16 b) := rfl

/-- Eight bit steps over a zero byte bring the upper byte down. -/
theorem crcBits_append_zero (hi : Byte) : crcBits 8 (hi ++ 0x00#8) = zext16 hi := by
  have hlow : ∀ k < 8, (hi ++ 0x00#8 : Word).getLsbD k = false := fun k hk => by
    rw [BitVec.getLsbD_append, if_pos hk, BitVec.getLsbD_zero]
  rw [crcBits_of_low_zero hlow, shiftRight_byte, opField_append]

/-- Eight bit steps: the upper byte comes down, and the low byte turns into its table entry. -/
theorem crcBits_append (hi lo : Byte) : crcBits 8 (hi ++ lo) = zext16 hi ^^^ crcUpdate 0x0000#16 lo := by
  have hparts : hi ++ lo = (hi ++ 0x00#8) ^^^ zext16 lo := by
    rw [xor_zext16, opField_append, immField_append, BitVec.zero_xor]
  rw [hparts, crcBits_xor, crcBits_append_zero, crcUpdate_eq_crcBits, BitVec.zero_xor]

/-- The table-driven update (40_crc.md R68). -/
theorem crcUpdate_eq_table (c : Word) (b : Byte) :
    crcUpdate c b = (c >>> 8) ^^^ crcUpdate 0x0000#16 (immField (c ^^^ zext16 b)) := by
  rw [crcUpdate_eq_crcBits, xor_zext16, immField_append, crcBits_append, shiftRight_byte]

/-- Folding in the register's own low byte leaves its upper byte. -/
theorem crcUpdate_immField (c : Word) : crcUpdate c (immField c) = zext16 (opField c) := by
  rw [crcUpdate_eq_crcBits, xor_zext16, BitVec.xor_self, crcBits_append_zero]

/-- Folding in a byte equal to all that the register holds leaves 0. -/
theorem crcUpdate_zext16 (b : Byte) : crcUpdate (zext16 b) b = 0x0000#16 := by
  rw [crcUpdate_eq_crcBits, BitVec.xor_self]
  rfl

/-! ### The CRC of a byte sequence (40_crc.md R66, R69) -/

@[simp] theorem crc16_nil : crc16 [] = Config.crcInit := rfl

theorem crc16_append (d e : List Byte) : crc16 (d ++ e) = e.foldl crcUpdate (crc16 d) := List.foldl_append

/-- The residue: the first wire byte folds the CRC's low byte away, the second its upper byte (R69). -/
theorem crc16_append_wireBytes (d : List Byte) : crc16 (d ++ wireBytes (crc16 d)) = 0x0000#16 := by
  rw [crc16_append, wireBytes_eq, List.foldl_cons, crcUpdate_immField, List.foldl_cons, crcUpdate_zext16,
    List.foldl_nil]

set_option maxRecDepth 8000 in
/-- The CRC of the request the host sends (R67). -/
theorem crc16_requestHeader : crc16 requestHeader = 0x0944#16 := by decide

/-! ### The bit step in numbers -/

theorem getLsbD_zero_eq_decide (c : Word) : c.getLsbD 0 = decide (c.toNat % 2 = 1) := Nat.testBit_zero c.toNat

theorem shiftRight_one_eq_ofNat (c : Word) : c >>> 1 = BitVec.ofNat 16 (c.toNat / 2) := by
  rw [← Nat.shiftRight_one, ← BitVec.toNat_ushiftRight, BitVec.ofNat_toNat, BitVec.setWidth_eq]

theorem zext16_eq_ofNat (b : Byte) : zext16 b = BitVec.ofNat 16 b.toNat := (BitVec.ofNat_toNat 16 b).symm

end Sys2Proof.Machine
end

section
/-! What the CRC commands do, alone and as CRC_MSG (30_encoding.md R61). -/

namespace Sys2Proof.Machine

theorem exec_crcInit (s : State) : exec .crcInit s = .next { s with crc := Config.crcInit } := rfl

theorem exec_crcByte (b : Byte) (s : State) : exec (.crcByte b) s = .next { s with crc := crcUpdate s.crc b } := rfl

theorem exec_crcRead (s : State) : exec .crcRead s = .next { s with rsp := s.crc } := rfl

/-- Commands in two parts, the first of which completes. -/
theorem execAll_append {p q : List Instr} {s t : State} (h : execAll p s = .next t) :
    execAll (p ++ q) s = execAll q t := by
  induction p generalizing s with
  | nil => cases h; rfl
  | cons i p ih =>
    obtain ⟨u, hu, h⟩ := execAll_cons_next h
    rw [List.cons_append, execAll_cons_of_next hu, ih h]

/-- CRC_BYTEs fold their bytes into CRC in order. -/
theorem execAll_crcBytes (d : List Byte) (s : State) :
    execAll (d.map .crcByte) s = .next { s with crc := d.foldl crcUpdate s.crc } := by
  induction d generalizing s with
  | nil => rfl
  | cons b d ih => rw [List.map_cons, execAll_cons_of_next (exec_crcByte b s), ih, List.foldl_cons]

/-- CRC_MSG leaves the CRC of its bytes in CRC, whatever CRC held, and changes nothing else (40_crc.md R66). -/
theorem execAll_crcMsg (d : List Byte) (s : State) : execAll (crcMsg d) s = .next { s with crc := crc16 d } := by
  rw [crcMsg, execAll_cons_of_next (exec_crcInit s), execAll_crcBytes, crc16]

/-- CRC_MSG and then CRC_READ shows the CRC of the bytes (40_crc.md R66, R67). -/
theorem execAll_crcMsg_crcRead (d : List Byte) (s : State) :
    execAll (crcMsg d ++ [.crcRead]) s = .next { s with crc := crc16 d, rsp := crc16 d } := by
  rw [execAll_append (execAll_crcMsg d s), execAll_cons_of_next (exec_crcRead _), execAll_nil]

theorem length_crcMsg (d : List Byte) : (crcMsg d).length = d.length + 1 := by simp [crcMsg]

/-- A decode does the same whatever CRC holds. -/
theorem execUnpDecode_crc {s t : State} (h : execUnpDecode s = .next t) (c : Word) :
    execUnpDecode { s with crc := c } = .next { t with crc := c } := by
  obtain ⟨v, hok, hv, rfl⟩ | ⟨d, hne, -, hd, rfl⟩ := execUnpDecode_next h
  · exact execUnpDecode_of_values (s := { s with crc := c }) ((validate_congr rfl rfl).trans hok)
      ((frameValues_congr rfl).trans hv)
  · exact execUnpDecode_of_failure (s := { s with crc := c }) ((validate_congr rfl rfl).trans hd) hne

end Sys2Proof.Machine
end

section
/-! The obligations on the CRC unit. -/

namespace Sys2Proof.Machine

/-- Settles O21: of the register after the byte is XORed in, the eight steps bring the upper byte down and turn the low
byte into its table entry. -/
theorem tableDrivenCrcAgrees : Obligations.TableDrivenCrcAgrees := by
  refine ⟨crcUpdate_eq_table, ?_, ?_, ?_, ?_, ?_, ?_⟩ <;> decide

/-- Settles O22: CRC_MSG runs as its commands' meanings, which fold the bytes as `crc16` does. -/
theorem crcMsgComputesCrc16 : Obligations.CrcMsgComputesCrc16 := by
  refine ⟨fun s d rest hs hin => ?_, crc16_nil, fun d b => crc16_append d [b]⟩
  rw [← length_crcMsg]
  exact runEdges_commandEdges hs hin (execAll_crcMsg d _)

/-- Settles O23: the two wire bytes fold the CRC away, and CRC_READ shows what CRC_MSG left. -/
theorem frameWithItsCrcHasZeroResidue : Obligations.FrameWithItsCrcHasZeroResidue := by
  refine ⟨crc16_append_wireBytes, fun s d rest hs hin => ?_⟩
  have hlength : (crcMsg (d ++ wireBytes (crc16 d)) ++ [Instr.crcRead]).length = d.length + 4 := by
    rw [List.length_append, length_crcMsg, List.length_append]
    rfl
  have hrun := runEdges_commandEdges hs hin (execAll_crcMsg_crcRead _ _)
  rw [hlength] at hrun
  exact ⟨_, hrun, crc16_append_wireBytes d⟩

/-- Settles O24: each CRC command reads and writes CRC and RSP alone, and what each unpacker command answers
leaves CRC out. -/
theorem crcUnitAndUnpackerAreIndependent : Obligations.CrcUnitAndUnpackerAreIndependent := by
  refine ⟨fun i s t hi h => ?_, fun i s t hi h => ?_⟩
  · have hnext := exec_next h
    cases i with
    | crcInit | crcByte | crcRead =>
      dsimp only at hnext
      subst hnext
      exact ⟨⟨rfl, rfl, rfl, rfl⟩, fun _ _ _ _ => rfl⟩
    | _ => cases hi
  · have hcrc : t.crc = s.crc := by
      by_contra hne
      obtain rfl | ⟨b, rfl⟩ := (exec_onlyWriters h).crc hne <;> cases hi
    have hnext := exec_next h
    cases i with
    | unpClear | unpRead =>
      dsimp only at hnext
      subst hnext
      exact ⟨hcrc, fun _ => rfl⟩
    | unpPush b =>
      dsimp only at hnext
      subst hnext
      exact ⟨hcrc, fun c => execUnpPush_eq b { s with crc := c }⟩
    | unpDecode => exact ⟨hcrc, execUnpDecode_crc h⟩
    | _ => cases hi

/-- Settles O17: CRC_INIT is of format Z and writes CRC alone. -/
theorem crcInitSetsTheInitialValue : Obligations.CrcInitSetsTheInitialValue :=
  ⟨decode_encode .crcInit, fun _ => rejectsOperand_of_formatZ rfl, exec_crcInit⟩

/-- Settles O18: CRC_BYTE writes CRC alone, and a byte equal to crc_lo clears the low half before the bit steps. -/
theorem crcByteFoldsOneByte : Obligations.CrcByteFoldsOneByte := by
  refine ⟨fun b => decode_encode (.crcByte b), fun s b => exec_crcByte b s, by decide, by decide, by decide, by decide,
    by decide, fun c => ?_⟩
  calc c ^^^ zext16 (immField c) = opField c ++ 0x00#8 := by rw [xor_zext16, BitVec.xor_self]
    _ = c &&& 0xFF00#16 := opField_append_zero c

/-- Settles O19: CRC_READ is of format Z, writes RSP alone, and the wire takes the word's low byte first. -/
theorem crcReadPutsTheCrcOnRsp : Obligations.CrcReadPutsTheCrcOnRsp := by
  refine ⟨decode_encode .crcRead, fun _ => rejectsOperand_of_formatZ rfl, exec_crcRead, fun s t h => ?_, ?_, ?_⟩
  · cases h
    rw [← immField_eq_ofNat, ← opField_eq_ofNat]
    exact wireBytes_eq s.crc
  · exact crc16_requestHeader
  · decide

/-- Settles O20: the bit shifted out is the parity, a shift halves, and a byte update is eight bit steps. -/
theorem crcBitStepShiftsRight : Obligations.CrcBitStepShiftsRight := by
  refine ⟨fun c h => ?_, fun c h => ?_, fun c b => ?_⟩
  · rw [crcBit_of_one (by rw [getLsbD_zero_eq_decide, h]; rfl), shiftRight_one_eq_ofNat]
    rfl
  · rw [crcBit_of_zero (by rw [getLsbD_zero_eq_decide, h]; rfl), shiftRight_one_eq_ofNat]
  · rw [crcUpdate_eq_crcBits, zext16_eq_ofNat]
    rfl

end Sys2Proof.Machine
end

section
/-! Bytes of a frame by index: the register a pair of cells holds, the four registers of a whole frame, and the outcome
that the source's decode step gives a byte sequence (41_unpack.md R71, R72). -/

namespace Sys2Proof.Machine

/-- The first byte is the high one (41_unpack.md R72). -/
theorem be16_eq_append (hi lo : Byte) : be16 hi lo = hi ++ lo := by
  have hhigh : zext16 hi <<< 8 = hi ++ 0x00#8 := by
    apply BitVec.eq_of_toNat_eq
    rw [BitVec.toNat_shiftLeft, zext16_eq_append, append_toNat, append_toNat, Nat.shiftLeft_eq, BitVec.toNat_zero]
    have := hi.isLt
    omega
  rw [be16, hhigh, zext16_eq_append, BitVec.or_append, BitVec.or_zero, BitVec.zero_or]

/-- The values in eleven cells: bytes 3 to 10 in pairs, the first of a pair high (41_unpack.md R72, R78). -/
def cellValues (c : Fin 11 → Byte) : ValFile := ⟨c 3 ++ c 4, c 5 ++ c 6, c 7 ++ c 8, c 9 ++ c 10⟩

/-- A register of a frame whose two cells have been written, its first byte high. -/
theorem frameRegister_of_cells {s : State} {i : Nat} {hi lo : Byte} (h : i ≤ 3)
    (hhi : Memory.read s.buf (3 + 2 * i) = some hi) (hlo : Memory.read s.buf (4 + 2 * i) = some lo) :
    frameRegister s i = .ok (hi ++ lo) := by
  have hoffset : regOffset i + 1 = 4 + 2 * i := by unfold regOffset; omega
  rw [frameRegister_of_read h hhi (hoffset ▸ hlo), be16_eq_append]

/-- The four registers of a frame whose eleven cells have been written. -/
theorem frameValues_of_cells {s : State} {c : Fin 11 → Byte}
    (h : ∀ k : Fin 11, Memory.read s.buf k.val = some (c k)) : frameValues s = .ok (cellValues c) :=
  frameValues_of_registers (frameRegister_of_cells (by decide) (h 3) (h 4))
    (frameRegister_of_cells (by decide) (h 5) (h 6)) (frameRegister_of_cells (by decide) (h 7) (h 8))
    (frameRegister_of_cells (by decide) (h 9) (h 10))

theorem frameOutcome_of_short {bytes : List Byte} (h : bytes.length < 11) :
    frameOutcome bytes = (.incomplete, none) := by
  unfold frameOutcome
  split
  · simp only [List.length_cons] at h
    omega
  · rfl

/-- The outcome of a sequence that is long enough, by its first eleven bytes. -/
theorem frameOutcome_of_bytes {bytes : List Byte} {c : Fin 11 → Byte}
    (h : ∀ k : Fin 11, bytes[k.val]? = some (c k)) :
    frameOutcome bytes =
      if c 0 = 0x01#8 ∧ c 1 = 0x03#8 ∧ c 2 = 0x08#8 then (.ok, some (cellValues c)) else (.badHeader, none) := by
  have hfirst : bytes.take 11 = List.ofFn c := by
    refine List.ext_getElem? fun k => ?_
    by_cases hk : k < 11
    · rw [List.getElem?_take_of_lt hk, List.getElem?_ofFn, dif_pos hk, h ⟨k, hk⟩]
    · rw [List.getElem?_take, if_neg hk, List.getElem?_ofFn, dif_neg hk]
  rw [← List.take_append_drop 11 bytes, hfirst]
  rfl

end Sys2Proof.Machine
end

section
/-! UNP_DECODE by the bytes in BUF, and after pushes past the eleventh, which touch neither BUF nor the outcome
(41_unpack.md R71, R77 to R79). -/

namespace Sys2Proof.Machine

/-- A decode of a long enough frame with a wrong header byte. -/
theorem execUnpDecode_of_wrongHeader {s : State} {addr func count : Byte} (hl : 11 ≤ s.len.toNat)
    (h0 : Memory.read s.buf 0 = some addr) (h1 : Memory.read s.buf 1 = some func)
    (h2 : Memory.read s.buf 2 = some count) (hwrong : ¬ (addr = 0x01#8 ∧ func = 0x03#8 ∧ count = 0x08#8)) :
    execUnpDecode s = .next { s with dstat := .badHeader } := by
  have hbad := validate_of_header hl h0 h1 h2
  rw [if_neg (mt (headerMatches_iff _ _ _).mp hwrong)] at hbad
  exact execUnpDecode_of_failure hbad (by decide)

/-- A decode of a long enough frame with the right header. -/
theorem execUnpDecode_of_rightHeader {s : State} {c : Fin 11 → Byte} (hl : 11 ≤ s.len.toNat)
    (h : ∀ k : Fin 11, Memory.read s.buf k.val = some (c k))
    (hright : c 0 = 0x01#8 ∧ c 1 = 0x03#8 ∧ c 2 = 0x08#8) :
    execUnpDecode s = .next { s with dstat := .ok, val := cellValues c } := by
  have hok := validate_of_header hl (h 0) (h 1) (h 2)
  rw [if_pos ((headerMatches_iff _ _ _).mpr hright)] at hok
  exact execUnpDecode_of_values hok (frameValues_of_cells h)

/-- A decode of a frame that was pushed from LEN = 0 on is the source's decode step (41_unpack.md R71, R72). -/
theorem execUnpDecode_of_pushed {bytes : List Byte} {s t : State} (hstart : s.len = 0x00#8) (h : Pushed bytes s t) :
    execUnpDecode t =
      .next { t with dstat := (frameOutcome bytes).1, val := ((frameOutcome bytes).2).getD t.val } := by
  have hlen : t.len.toNat = min bytes.length 255 := by simpa [hstart] using h.len
  by_cases hshort : bytes.length < 11
  · rw [frameOutcome_of_short hshort]
    exact execUnpDecode_of_short (by omega)
  · obtain ⟨c, hbytes⟩ : ∃ c : Fin 11 → Byte, ∀ k, bytes[k.val]? = some (c k) :=
      ⟨fun k => bytes[k.val]'(by omega), fun k => List.getElem?_eq_getElem _⟩
    have hcells : ∀ k : Fin 11, Memory.read t.buf k.val = some (c k) := fun k => by
      rw [← hbytes]
      simpa [hstart] using h.stored k.val k.isLt (by simp [hstart]) (by simp [hstart]; omega)
    have hl : 11 ≤ t.len.toNat := by omega
    rw [frameOutcome_of_bytes hbytes]
    split
    · next hright => exact execUnpDecode_of_rightHeader hl hcells hright
    · next hwrong => exact execUnpDecode_of_wrongHeader hl (hcells 0) (hcells 1) (hcells 2) hwrong

/-- UNP_FRAME and then UNP_DECODE, from every state, are the source's decode step (41_unpack.md R77, R78). -/
theorem execAll_unpFrame_unpDecode (bytes : List Byte) (s : State) :
    ∃ t, execAll (unpFrame bytes ++ [.unpDecode]) s = .next t ∧
      t.dstat = (frameOutcome bytes).1 ∧ t.val = ((frameOutcome bytes).2).getD s.val ∧
      t = { s with buf := t.buf, len := t.len, dstat := t.dstat, val := t.val } := by
  obtain ⟨u, hframe, hpushed⟩ := execAll_unpFrame bytes s
  have hval : u.val = s.val := (congrArg State.val hpushed.frame :)
  have hdecode := execUnpDecode_of_pushed rfl hpushed
  refine ⟨_, (execAll_append hframe).trans (execAll_cons_of_next hdecode), rfl, by rw [hval], ?_⟩
  exact (congrArg (fun x : State =>
    { x with dstat := (frameOutcome bytes).1, val := ((frameOutcome bytes).2).getD u.val }) hpushed.frame :)

/-- A longer frame over the same eleven cells decodes to the same (41_unpack.md R77). -/
theorem execUnpDecode_of_longer {s t : State} {n : Byte} (h : execUnpDecode s = .next t) (hs : 11 ≤ s.len.toNat)
    (hn : 11 ≤ n.toNat) : execUnpDecode { s with len := n } = .next { t with len := n } := by
  have hvalidate : validate { s with len := n } = validate s := validate_congr_of_long rfl hs hn
  obtain ⟨v, hok, hv, rfl⟩ | ⟨d, hne, -, hd, rfl⟩ := execUnpDecode_next h
  · exact execUnpDecode_of_values (hvalidate.trans hok) ((frameValues_congr rfl).trans hv)
  · exact execUnpDecode_of_failure (hvalidate.trans hd) hne

/-- Pushes past the eleventh change LEN alone (41_unpack.md R75). -/
theorem execAll_pushes_of_long (bytes : List Byte) {s : State} (h : 11 ≤ s.len.toNat) :
    ∃ n : Byte, 11 ≤ n.toNat ∧ execAll (bytes.map .unpPush) s = .next { s with len := n } := by
  induction bytes generalizing s with
  | nil => exact ⟨s.len, h, rfl⟩
  | cons b bytes ih =>
    have hnone : pushIndex s = none := if_neg (by omega)
    have hpush : exec (.unpPush b) s = .next _ := execUnpPush_eq b s
    simp only [hnone] at hpush
    have hlong : 11 ≤ (satInc s.len).toNat := by rw [satInc_toNat]; omega
    obtain ⟨n, hn, hrun⟩ := ih (s := { s with len := satInc s.len }) hlong
    exact ⟨n, hn, (execAll_cons_of_next hpush).trans hrun⟩

/-- Pushes past the eleventh before a decode change LEN alone (41_unpack.md R77, R79). -/
theorem execAll_pushes_unpDecode {s t : State} (bytes : List Byte) (h : execUnpDecode s = .next t)
    (hs : 11 ≤ s.len.toNat) :
    ∃ n : Byte, execAll (bytes.map .unpPush ++ [.unpDecode]) s = .next { t with len := n } := by
  obtain ⟨n, hn, hpushes⟩ := execAll_pushes_of_long bytes hs
  have hdecode : exec .unpDecode { s with len := n } = .next { t with len := n } := execUnpDecode_of_longer h hs hn
  exact ⟨n, by rw [execAll_append hpushes, execAll_cons_of_next hdecode, execAll_nil]⟩

/-- Any bytes after the eleventh change LEN alone in the block after UNP_FRAME and UNP_DECODE (41_unpack.md R77). -/
theorem execAll_unpFrame_trailing {bytes : List Byte} (extra : List Byte) (s : State) (h : 11 ≤ bytes.length) :
    ∃ (t : State) (n : Byte), execAll (unpFrame bytes ++ [.unpDecode]) s = .next t ∧
      execAll (unpFrame (bytes ++ extra) ++ [.unpDecode]) s = .next { t with len := n } := by
  obtain ⟨u, hframe, hpushed⟩ := execAll_unpFrame bytes s
  have hdecode := execUnpDecode_of_pushed rfl hpushed
  have hlen : u.len.toNat = min bytes.length 255 := by simpa using hpushed.len
  obtain ⟨n, hmore⟩ := execAll_pushes_unpDecode extra hdecode (by omega)
  have hsplit : unpFrame (bytes ++ extra) = unpFrame bytes ++ extra.map .unpPush := by simp [unpFrame]
  refine ⟨_, n, (execAll_append hframe).trans (execAll_cons_of_next hdecode), ?_⟩
  rw [hsplit, List.append_assoc, execAll_append hframe, hmore]

/-- The edges that present UNP_FRAME and UNP_DECODE to a reset block. -/
theorem runEdges_unpFrame_unpDecode {bytes : List Byte} {s t : State} {rest : List PortEdge}
    (hs : s.hasReset = true) (hin : s.inputs = commandEdges (unpFrame bytes ++ [.unpDecode]) ++ rest)
    (h : execAll (unpFrame bytes ++ [.unpDecode]) { s with inputs := rest } = .next t) :
    runEdges (bytes.length + 2) s = .next t := by
  have hlength : (unpFrame bytes ++ [Instr.unpDecode]).length = bytes.length + 2 := by simp [unpFrame]
  exact hlength ▸ runEdges_commandEdges hs hin h

end Sys2Proof.Machine
end

section
/-! VAL before the first successful decode (41_unpack.md R84). -/

namespace Sys2Proof.Machine

/-- An edge after which DSTAT is not OK leaves VAL at its reset value. -/
theorem step_keeps_resetVal {s t : State} (h : step s = .next t) (hs : s.val = State.reset.val)
    (ht : t.dstat ≠ .ok) : t.val = State.reset.val := by
  obtain ⟨-, rfl⟩ | rfl | ⟨i, -, hexec⟩ | ⟨w, c, -, -, rfl⟩ := step_next_presented h
  · rfl
  · exact hs
  · by_cases hkept : t.val = s.val
    · exact hkept.trans hs
    · exact absurd ((exec_onlyWriters hexec).val hkept).2 ht
  · exact (raiseCmdError_val c _).trans hs

/-- So does a run after none of whose edges DSTAT is OK. -/
theorem runEdges_keeps_resetVal {n : Nat} {s t : State} (h : runEdges n s = .next t)
    (hs : s.val = State.reset.val) (hnok : ∀ m ≤ n, ∀ u, runEdges m s = .next u → u.dstat ≠ .ok) :
    t.val = State.reset.val := by
  induction n generalizing s with
  | zero => cases h; exact hs
  | succ n ih =>
    obtain ⟨u, hstep, hrest⟩ := runEdges_next h
    have hu : u.dstat ≠ .ok := hnok 1 (by omega) u (by rw [runEdges_of_step hstep, runEdges_zero])
    refine ih hrest (step_keeps_resetVal hstep hs hu) fun m hm v hv => ?_
    exact hnok (m + 1) (by omega) v ((runEdges_of_step hstep).trans hv)

end Sys2Proof.Machine
end

section
/-! The obligations on the unpacker. -/

namespace Sys2Proof.Machine

/-- Settles O26: a push stores at `pushIndex`, if that is an index, and counts. -/
theorem unpPushStoresAndCounts : Obligations.UnpPushStoresAndCounts := by
  refine ⟨fun b => decode_encode (.unpPush b), fun s => ⟨fun h => if_pos h, fun h => if_neg (by omega)⟩,
    fun s b => ⟨_, execUnpPush_eq b s, fun k hk => ?_, fun hnone => ?_, ?_, rfl⟩⟩
  · simp only [hk]
    exact ⟨Memory.read_write_same _ _ _, fun a ha => Memory.read_write_other _ _ ha⟩
  · simp only [hnone]
  · have := s.len.isLt
    simp only [satInc_toNat]
    split <;> omega

/-- Settles O28: the validation's outcome decides, and the registers are the pairs of cells after the header. -/
theorem unpDecodeValidatesThenDecodes : Obligations.UnpDecodeValidatesThenDecodes :=
  ⟨decode_encode .unpDecode, fun _ => rejectsOperand_of_formatZ rfl, fun _ => execUnpDecode_of_short,
    fun _ _ _ _ hl h0 h1 h2 hwrong => execUnpDecode_of_wrongHeader hl h0 h1 h2 (by tauto),
    fun _ _ hl h h0 h1 h2 => execUnpDecode_of_rightHeader hl h ⟨h0, h1, h2⟩⟩

/-- Settles O30: the commands run as their meanings, and the decode finds in BUF and LEN what the source's decode step
finds in the sequence. -/
theorem frameDecodeIsTheSourcesDecode : Obligations.FrameDecodeIsTheSourcesDecode := by
  intro s bytes rest hs hin
  obtain ⟨t, hexec, hdstat, hval, hframe⟩ := execAll_unpFrame_unpDecode bytes { s with inputs := rest }
  exact ⟨t, runEdges_unpFrame_unpDecode hs hin hexec, hdstat, hval, hframe⟩

/-- Settles O31: after the eleventh byte the further pushes change LEN alone, and the decode asks no more of LEN than
that it is at least 11. -/
theorem trailingBytesAreIgnored : Obligations.TrailingBytesAreIgnored := by
  intro s bytes extra hlong hs
  obtain ⟨t, n, hexec, hexec'⟩ := execAll_unpFrame_trailing extra { s with inputs := [] } hlong
  rw [← List.length_append]
  exact ⟨t, { t with len := n }, runEdges_unpFrame_unpDecode hs (List.append_nil _).symm hexec,
    runEdges_unpFrame_unpDecode hs (List.append_nil _).symm hexec', rfl, rfl, rfl⟩

/-- Settles O32: a decode writes nothing that it reads, and a successful one has found LEN at least 11, so that further
pushes change LEN alone. -/
theorem decodeDoesNotConsumeTheFrame : Obligations.DecodeDoesNotConsumeTheFrame := by
  refine ⟨fun s t h => ?_, fun s t bytes rest h hok hs hin => ?_⟩
  · have hagain : exec .unpDecode t = .next t := execUnpDecode_again h
    obtain ⟨v, -, -, rfl⟩ | ⟨d, -, -, -, rfl⟩ := execUnpDecode_next h <;> exact ⟨rfl, rfl, hagain⟩
  · have hl : 11 ≤ t.len.toNat := by
      obtain ⟨v, hv, -, rfl⟩ | ⟨d, hne, -, -, rfl⟩ := execUnpDecode_next h
      · simpa using validate_ok_cases hv
      · exact absurd hok hne
    obtain ⟨-, hagain⟩ := exec_inputs (i := .unpDecode) (execUnpDecode_again h) rest
    obtain ⟨n, hexec⟩ := execAll_pushes_unpDecode bytes hagain hl
    have hrun := runEdges_commandEdges hs hin hexec
    rw [List.length_append, List.length_map] at hrun
    exact ⟨_, hrun, hok, rfl, rfl⟩

/-- Settles O49, by induction on the number of edges: the one writer of VAL leaves DSTAT at OK. -/
theorem valIsZeroUntilADecodeSucceeds : Obligations.ValIsZeroUntilADecodeSucceeds :=
  fun _ _ _ h hnok => runEdges_keeps_resetVal h rfl fun m hm u => hnok m u hm

/-- Settles O25: UNP_CLEAR is of format Z and writes LEN and DSTAT alone. -/
theorem unpClearStartsANewFrame : Obligations.UnpClearStartsANewFrame :=
  ⟨decode_encode .unpClear, fun _ => rejectsOperand_of_formatZ rfl, fun _ => rfl⟩

/-- Settles O33: UNP_READ is of format I, which admits no IMM8 above 3, and writes RSP alone. -/
theorem unpReadPutsTheValueOnRsp : Obligations.UnpReadPutsTheValueOnRsp := by
  refine ⟨fun k => decode_encode (.unpRead k), fun imm h => ?_, fun s => ⟨rfl, rfl, rfl, rfl⟩⟩
  have hbad : decode (0x13#8 ++ imm) = .illegal .badOperand := by
    rw [decode_op_unpRead (opField_append _ _), immField_append, decodeI_gt h]
  exact ⟨hbad, fun _ _ hs hin => step_illegal hs hin hbad⟩

/-- Settles O34: the shift makes room for the low byte, and register `i` starts at cell 3 + 2i. -/
theorem modbusRegistersAreBigEndian : Obligations.ModbusRegistersAreBigEndian :=
  ⟨fun hi lo => ⟨be16_eq_append hi lo, (be16_eq_append hi lo).symm, by rw [be16_eq_append, append_toNat]⟩,
    fun _ _ _ _ => frameRegister_of_cells⟩

end Sys2Proof.Machine
end

section
/-! The control and status commands: the fields of the status word (10_state.md R24), what STAT_READ takes it from, and
the obligations (42_control.md R85 to R88). -/

namespace Sys2Proof.Machine

/-! ### The fields of STAT, from the top (10_state.md R24) -/

theorem statWord_lenField (s : State) : (statWord s).extractLsb' 8 8 = s.len := by
  rw [statWord, BitVec.extractLsb'_append_eq_of_le (by decide), BitVec.extractLsb'_append_eq_of_le (by decide),
    BitVec.extractLsb'_append_eq_of_le (by decide)]
  exact BitVec.extractLsb'_append_eq_left

theorem statWord_zeroField (s : State) : (statWord s).extractLsb' 5 3 = 0b000#3 := by
  rw [statWord, BitVec.extractLsb'_append_eq_of_le (by decide), BitVec.extractLsb'_append_eq_of_le (by decide),
    BitVec.extractLsb'_append_eq_of_le (by decide)]
  exact BitVec.extractLsb'_append_eq_right

theorem statWord_errBit (s : State) : (statWord s).getLsbD 4 = s.err := by
  rw [statWord, BitVec.getLsbD_append, if_neg (by decide), BitVec.getLsbD_append, if_neg (by decide),
    BitVec.getLsbD_append, if_pos (by decide), BitVec.getLsbD_ofBool]
  rfl

theorem statWord_ecauseField (s : State) : (statWord s).extractLsb' 2 2 = ecauseCode s.ecause := by
  rw [statWord, BitVec.extractLsb'_append_eq_of_le (by decide)]
  exact BitVec.extractLsb'_append_eq_right

theorem statWord_dstatField (s : State) : (statWord s).extractLsb' 0 2 = dstatCode s.dstat :=
  BitVec.extractLsb'_append_eq_right

/-! ### The meanings -/

theorem exec_nop (s : State) : exec .nop s = .next s := rfl

theorem exec_errClear (s : State) : exec .errClear s = .next { s with err := false, ecause := .none } := rfl

theorem exec_statRead {s : State} (hc : s.ecause ≠ .reserved) :
    exec .statRead s = .next { s with rsp := statWord s } := execStatRead_eq hc

/-- STAT is assembled from LEN, ERR, ECAUSE and DSTAT alone (42_control.md R86). -/
theorem statWord_outside (s : State) (c : Word) (m : Memory) (v : ValFile) (r : Word) :
    statWord { s with crc := c, buf := m, val := v, rsp := r } = statWord s := rfl

/-- Settles O39, command by command: NOP and ERR_CLEAR read nothing, and STAT_READ reads what STAT is assembled from. -/
theorem controlCommandsTouchOnlyTheirOwn : Obligations.ControlCommandsTouchOnlyTheirOwn := by
  intro i s t hi h
  have hnext := exec_next h
  cases i with
  | nop =>
    dsimp only at hnext
    subst hnext
    exact ⟨rfl, rfl, rfl, rfl, rfl, fun _ => ⟨rfl, rfl⟩, fun _ => rfl, fun _ _ _ _ => exec_nop _⟩
  | errClear =>
    dsimp only at hnext
    subst hnext
    exact ⟨rfl, rfl, rfl, rfl, rfl, fun hne => absurd rfl hne, fun _ => rfl, fun _ _ _ _ => exec_errClear _⟩
  | statRead =>
    obtain ⟨hc, rfl⟩ := hnext
    refine ⟨rfl, rfl, rfl, rfl, rfl, fun _ => ⟨rfl, rfl⟩, fun hne => absurd rfl hne, fun c m v r => ?_⟩
    have hread := exec_statRead (s := { s with crc := c, buf := m, val := v, rsp := r }) hc
    rwa [statWord_outside] at hread
  | _ => cases hi

/-- Settles O35: NOP is of format Z and writes nothing. -/
theorem nopChangesNothing : Obligations.NopChangesNothing :=
  ⟨decode_encode .nop, fun _ => rejectsOperand_of_formatZ rfl, exec_nop⟩

/-- Settles O36: STAT_READ is of format Z and writes RSP alone, with the status word, whose fields these are. -/
theorem statReadAssemblesTheStatus : Obligations.StatReadAssemblesTheStatus :=
  ⟨decode_encode .statRead, fun _ => rejectsOperand_of_formatZ rfl, fun s hc =>
    ⟨_, exec_statRead hc, rfl, statWord_lenField s, statWord_zeroField s, statWord_errBit s, statWord_ecauseField s,
      statWord_dstatField s⟩⟩

/-- Settles O38: ERR_CLEAR is of format Z and writes ERR and ECAUSE alone. -/
theorem errClearClearsTheErrorRecord : Obligations.ErrClearClearsTheErrorRecord :=
  ⟨decode_encode .errClear, fun _ => rejectsOperand_of_formatZ rfl, exec_errClear⟩

end Sys2Proof.Machine
end

section
/-! The error record (10_state.md R20, R21): what an illegal word makes of it, and that no command but STAT_READ and
ERR_CLEAR has to do with it (60_exceptions.md R90, R93, R95). -/

namespace Sys2Proof.Machine

/-- A decode does the same whatever the error record holds. -/
theorem execUnpDecode_errorRecord {s t : State} (h : execUnpDecode s = .next t) (e : Bool) (c : ECause) :
    execUnpDecode { s with err := e, ecause := c } = .next { t with err := e, ecause := c } := by
  obtain ⟨v, hok, hv, rfl⟩ | ⟨d, hne, -, hd, rfl⟩ := execUnpDecode_next h
  · exact execUnpDecode_of_values (s := { s with err := e, ecause := c }) ((validate_congr rfl rfl).trans hok)
      ((frameValues_congr rfl).trans hv)
  · exact execUnpDecode_of_failure (s := { s with err := e, ecause := c }) ((validate_congr rfl rfl).trans hd) hne

/-- So does every command but the one that reads the record and the one that clears it, and leaves it (R93). -/
theorem exec_errorRecord {i : Instr} {s t : State} (hstat : i ≠ .statRead) (hclear : i ≠ .errClear)
    (h : exec i s = .next t) (e : Bool) (c : ECause) :
    exec i { s with err := e, ecause := c } = .next { t with err := e, ecause := c } := by
  have hnext := exec_next h
  cases i with
  | statRead => contradiction
  | errClear => contradiction
  | unpDecode => exact execUnpDecode_errorRecord h e c
  | unpPush b =>
    dsimp only at hnext
    subst hnext
    exact execUnpPush_eq b { s with err := e, ecause := c }
  | _ => dsimp only at hnext; subst hnext; rfl

/-- Every edge that gives a next state has been taken away from those to come. -/
theorem step_inputs {s t : State} (h : step s = .next t) : t.inputs = s.inputs.tail := by
  obtain ⟨-, rfl⟩ | rfl | ⟨i, -, hexec⟩ | ⟨w, c, -, -, rfl⟩ := step_next_presented h
  · rfl
  · rfl
  · exact (exec_inputs hexec []).1
  · exact raiseCmdError_inputs c _

/-- The coming edge is one of those listed, unless none is and the host idles. -/
theorem presentedEdge_mem_or_idle (s : State) : presentedEdge s ∈ s.inputs ∨ presentedEdge s = idleEdge := by
  cases hin : s.inputs with
  | nil => exact .inr (presentedEdge_nil hin)
  | cons e rest => exact .inl (presentedEdge_cons hin ▸ List.mem_cons_self)

/-- While ERR is 1, an edge that is no reset and accepts no ERR_CLEAR keeps the error record: an illegal word records
its cause only over ERR = 0 (R90, R95). -/
theorem step_keeps_firstCause {s t : State} (h : step s = .next t) (herr : s.err = true)
    (hreset : ¬ resetPresented s) (hclear : ¬ commandPresented s .errClear) :
    t.err = true ∧ t.ecause = s.ecause := by
  obtain ⟨hr, -⟩ | rfl | ⟨i, hi, hexec⟩ | ⟨w, c, -, -, rfl⟩ := step_next_presented h
  · exact absurd hr hreset
  · exact ⟨herr, rfl⟩
  · have hsame : ¬ (t.err ≠ s.err ∨ t.ecause ≠ s.ecause) := fun hne =>
      hclear ((exec_onlyWriters hexec).errorRecord hne ▸ hi)
    rw [not_or, not_not, not_not] at hsame
    exact ⟨hsame.1.trans herr, hsame.2⟩
  · exact ⟨raiseCmdError_err c _, by simp [raiseCmdError_ecause, herr]⟩

/-- So does a run over any number of such edges. -/
theorem runEdges_keeps_firstCause {n : Nat} {s t : State} (h : runEdges n s = .next t) (herr : s.err = true)
    (hedges : ∀ e ∈ s.inputs, e.rst = false ∧ e ≠ commandEdge (encode .errClear)) :
    t.err = true ∧ t.ecause = s.ecause := by
  induction n generalizing s with
  | zero => cases h; exact ⟨herr, rfl⟩
  | succ n ih =>
    obtain ⟨u, hstep, hrest⟩ := runEdges_next h
    have hnext : (presentedEdge s).rst = false ∧ presentedEdge s ≠ commandEdge (encode .errClear) := by
      obtain hlisted | hidle := presentedEdge_mem_or_idle s
      · exact hedges _ hlisted
      · rw [hidle]
        decide
    obtain ⟨huerr, hucause⟩ := step_keeps_firstCause hstep herr (by simp [resetPresented, hnext.1]) hnext.2
    rw [← hucause]
    refine ih hrest huerr fun e he => hedges e ?_
    rw [step_inputs hstep] at he
    exact List.mem_of_mem_tail he

/-- Settles O40: ERR and ECAUSE are read by STAT_READ alone, which ERR does not stop, and ERR_CLEAR overwrites both. -/
theorem errorRecordBlocksNoCommand : Obligations.ErrorRecordBlocksNoCommand :=
  ⟨fun _ _ _ e c hstat hclear h => exec_errorRecord hstat hclear h e c, fun _ _ _ => rfl,
    fun s e hc => ⟨_, exec_statRead (s := { s with err := e }) hc⟩⟩

/-- Settles O42, by induction on the number of edges. -/
theorem firstCauseIsKeptUntilCleared : Obligations.FirstCauseIsKeptUntilCleared :=
  fun _ _ _ herr hedges h => runEdges_keeps_firstCause h herr hedges

/-- Settles O10: the next state is the one `raise CmdError` gives. -/
theorem illegalWordOnlyRecordsItsCause : Obligations.IllegalWordOnlyRecordsItsCause := by
  intro s w rest c hs hin hd
  refine ⟨_, step_illegal hs hin hd, rfl, fun herr => if_pos herr, fun herr => ?_, rfl⟩
  simp only [herr, Bool.false_eq_true, if_false]
  cases c <;> rfl

end Sys2Proof.Machine
end

section
/-! The host's test of the status word, and what it returns (60_exceptions.md R104, R105). -/

namespace Sys2Proof.Machine

/-- STAT[1:0] in numbers (10_state.md R24). -/
theorem statusOk_iff_mod_four (stat : Word) : statusOk stat ↔ stat.toNat % 4 = 1 := by
  rw [statusOk, ← BitVec.toNat_inj, BitVec.extractLsb'_toNat]
  rfl

theorem dstatCode_eq_ok_iff (d : DStat) : dstatCode d = dstatCode .ok ↔ d = .ok := by
  cases d <;> decide

/-- The status word of a block passes the host's test exactly if DSTAT is OK. -/
theorem statusOk_statWord (s : State) : statusOk (statWord s) ↔ s.dstat = .ok := by
  rw [statusOk, statWord_dstatField, dstatCode_eq_ok_iff]

theorem hostResult_of_ok {stat : Word} (h : statusOk stat) (v : ValFile) :
    hostResult false stat v = sensorReading v := if_pos ⟨rfl, h⟩

theorem hostResult_of_not_ok {stat : Word} (h : ¬ statusOk stat) (v : ValFile) :
    hostResult false stat v = sentinel := if_neg fun hok => h hok.2

/-- The EC field of a reading is a 16-bit number, and the sentinel's is -1 (R104, R105). -/
theorem sensorReading_ne_sentinel (v : ValFile) : sensorReading v ≠ sentinel := by
  intro h
  have hec : (v.ec.toNat : Int) = -1 := congrArg SensorReading.ec h
  omega

/-- The host returns the sentinel exactly on a failure. -/
theorem hostResult_eq_sentinel_iff (failed : Bool) (stat : Word) (v : ValFile) :
    hostResult failed stat v = sentinel ↔ ¬ (failed = false ∧ statusOk stat) := by
  unfold hostResult
  split
  · next hok => exact iff_of_false (sensorReading_ne_sentinel v) (not_not_intro hok)
  · next hfail => exact iff_of_true rfl hfail

/-- The outcome of the source's decode step is OK with four values, or a failure with none. -/
theorem frameOutcome_cases (received : List Byte) :
    (∃ v, frameOutcome received = (.ok, some v)) ∨ (∃ d, d ≠ .ok ∧ frameOutcome received = (d, none)) := by
  unfold frameOutcome
  split
  · split
    · exact .inl ⟨_, rfl⟩
    · exact .inr ⟨_, by decide, rfl⟩
  · exact .inr ⟨_, by decide, rfl⟩

/-- What the host is to return for received bytes: the reading they carry if the source's decode step accepts them,
else the sentinel. -/
def frameReading (received : List Byte) : SensorReading :=
  match (frameOutcome received).2 with
  | some v => sensorReading v
  | none => sentinel

/-- A host that has the status and the values of the source's decode step returns what it is to return. -/
theorem hostResult_of_frameOutcome {received : List Byte} {stat : Word}
    (h : statusOk stat ↔ (frameOutcome received).1 = .ok) (v : ValFile) :
    hostResult false stat (((frameOutcome received).2).getD v) = frameReading received := by
  unfold frameReading
  obtain ⟨w, hw⟩ | ⟨d, hd, hnone⟩ := frameOutcome_cases received
  · rw [hw] at h ⊢
    exact hostResult_of_ok (h.mpr rfl) w
  · rw [hnone] at h ⊢
    exact hostResult_of_not_ok (fun hok => hd (h.mp hok)) v

end Sys2Proof.Machine
end

section
/-! The host's cycle, carried out with the block: commands issued to a reset block run their meanings, and the host
samples `rsp` after each (60_exceptions.md R103). -/

namespace Sys2Proof.Machine

/-- Commands that complete, issued to a reset block: the last word sampled is the one RSP holds. -/
theorem issue_of_execAll {p : List Instr} {s t : State} (hs : s.hasReset = true) (h : execAll p s = .next t)
    (hp : p ≠ []) : ∃ ws, issue p s = .next (ws, t) ∧ lastWord ws = t.rsp := by
  have hrun := runEdges_commandEdges (s := { s with inputs := commandEdges p ++ s.inputs }) hs rfl h
  obtain ⟨ws, hissue, -, hlast⟩ := issue_of_runEdges hrun
  exact ⟨ws, hissue, hlast hp⟩

theorem issueOne_unpRead {s : State} (hs : s.hasReset = true) (k : BitVec 2) :
    issueOne (.unpRead k) s = .next (valAt s.val k, { s with rsp := valAt s.val k }) :=
  issueOne_next (t := { s with rsp := valAt s.val k }) (decode_encode _) hs rfl

/-- UNP_READ_ALL shows the four values in order, and leaves the last on `rsp` (30_encoding.md R61). -/
theorem issue_unpReadAll {s : State} (hs : s.hasReset = true) :
    issue unpReadAll s = .next ([s.val.hum, s.val.temp, s.val.ec, s.val.ph], { s with rsp := s.val.ph }) :=
  have hread (r : Word) := issueOne_unpRead (s := { s with rsp := r }) hs
  issue_cons (hread _ 0#2) <| issue_cons (hread _ 1#2) <| issue_cons (hread _ 2#2) <|
    issue_cons (hread _ 3#2) (issue_nil _)

/-- The frame the host transmits (60_exceptions.md R103). -/
theorem requestFrame_crc16 : requestFrame (crc16 requestHeader) =
    [0x01#8, 0x03#8, 0x00#8, 0x00#8, 0x00#8, 0x04#8, 0x44#8, 0x09#8] := by
  rw [crc16_requestHeader]
  decide

/-- Step 1: the block computes the request's CRC, which CRC and RSP then hold. -/
theorem requestPhase_next {s : State} (hs : s.hasReset = true) :
    requestPhase s = .next ([0x01#8, 0x03#8, 0x00#8, 0x00#8, 0x00#8, 0x04#8, 0x44#8, 0x09#8],
      { s with crc := 0x0944#16, rsp := 0x0944#16 }) := by
  obtain ⟨ws, hissue, hlast⟩ := issue_of_execAll hs (execAll_crcMsg_crcRead requestHeader s) (by simp)
  rw [requestPhase, requestCommands, hissue, HostRun.andThen_next, hlast, requestFrame_crc16, crc16_requestHeader]

/-- Step 5 by its meanings: RSP holds the status word, DSTAT and VAL what the source's decode step says of the bytes,
and only BUF and LEN have changed besides. -/
theorem execAll_responseCommands (received : List Byte) {s : State} (hc : s.ecause ≠ .reserved) :
    ∃ t, execAll (responseCommands received) s = .next t ∧
      (statusOk t.rsp ↔ (frameOutcome received).1 = .ok) ∧ t.val = ((frameOutcome received).2).getD s.val ∧
      t = { s with buf := t.buf, len := t.len, dstat := t.dstat, val := t.val, rsp := t.rsp } := by
  obtain ⟨u, hdecode, hdstat, hval, hframe⟩ := execAll_unpFrame_unpDecode received s
  have hcause : u.ecause = s.ecause := (congrArg State.ecause hframe :)
  have hread : exec .statRead u = .next { u with rsp := statWord u } := exec_statRead (hcause ▸ hc)
  have hsplit : responseCommands received = (unpFrame received ++ [.unpDecode]) ++ [.statRead] := by
    simp [responseCommands]
  refine ⟨{ u with rsp := statWord u }, ?_, ?_, hval, ?_⟩
  · rw [hsplit, execAll_append hdecode, execAll_cons_of_next hread, execAll_nil]
  · rw [← hdstat]
    exact statusOk_statWord u
  · exact (congrArg (fun x : State => { x with rsp := statWord u }) hframe :)

/-- Steps 5 and 6: whether or not the status is OK, the host returns what `hostResult` says of the block's own RSP and
VAL, and step 6 changes RSP alone. -/
theorem responsePhase_next {received : List Byte} {s t : State} (hs : s.hasReset = true) (ht : t.hasReset = true)
    (h : execAll (responseCommands received) s = .next t) :
    ∃ r, responsePhase received s = .next (hostResult false t.rsp t.val, { t with rsp := r }) := by
  obtain ⟨ws, hissue, hlast⟩ := issue_of_execAll hs h (by simp [responseCommands])
  rw [responsePhase, hissue, HostRun.andThen_next, hlast]
  by_cases hok : statusOk t.rsp
  · rw [readCommands, if_pos hok, issue_unpReadAll ht]
    exact ⟨t.val.ph, rfl⟩
  · rw [readCommands, if_neg hok, issue_nil, hostResult_of_not_ok hok]
    exact ⟨t.rsp, rfl⟩

end Sys2Proof.Machine
end

section
/-! The obligations on the host's side of the contract (60_exceptions.md R102 to R105). -/

namespace Sys2Proof.Machine

/-- Settles O58: the commands run as their meanings, after which RSP and VAL are what the host asks. -/
theorem hostGetsTheReadingOrTheSentinel : Obligations.HostGetsTheReadingOrTheSentinel := by
  intro s received rest hs hc hin
  obtain ⟨t, hexec, hstatus, hval, -⟩ := execAll_responseCommands received (s := { s with inputs := rest }) hc
  have hlength : (responseCommands received).length = received.length + 3 := by simp [responseCommands, unpFrame]
  refine ⟨t, hlength ▸ runEdges_commandEdges hs hin hexec, ?_⟩
  rw [hval]
  exact hostResult_of_frameOutcome hstatus s.val

/-- Settles O60: step 1 leaves a reset block with the same error record, and so do steps 5 and 6 if the transport gives
them bytes. -/
theorem hostCycleReturnsTheReadingOrTheSentinel : Obligations.HostCycleReturnsTheReadingOrTheSentinel := by
  intro s transport hs hc
  rw [hostCycle, requestPhase_next hs, HostRun.andThen_next]
  cases transport _ with
  | none => exact ⟨_, rfl, rfl, rfl, rfl⟩
  | some received =>
    obtain ⟨t, hexec, hstatus, hval, hframe⟩ :=
      execAll_responseCommands received (s := { s with crc := 0x0944#16, rsp := 0x0944#16 }) hc
    have ht : t.hasReset = true := (congrArg State.hasReset hframe).trans hs
    obtain ⟨r, hphase⟩ := responsePhase_next (s := { s with crc := 0x0944#16, rsp := 0x0944#16 }) hs ht hexec
    rw [hval, hostResult_of_frameOutcome hstatus] at hphase
    exact ⟨_, hphase, (congrArg State.err hframe :), (congrArg State.ecause hframe :),
      (congrArg State.inputs hframe :)⟩

/-- Settles O57: EC, a 16-bit number, is never the sentinel's -1, and STAT mod 4 is the field the host tests. -/
theorem sentinelIsNoReading : Obligations.SentinelIsNoReading := by
  refine ⟨sensorReading_ne_sentinel, fun failed stat v => ?_⟩
  rw [hostResult_eq_sentinel_iff, statusOk_iff_mod_four, not_and_or, Bool.not_eq_false]

/-- Settles O59: the commands are issued to the block one by one, and STAT mod 4 is the field the host tests. -/
theorem hostStepsOneAndSixUseTheBlock : Obligations.HostStepsOneAndSixUseTheBlock :=
  ⟨fun _ => requestPhase_next, fun stat h => if_pos ((statusOk_iff_mod_four stat).mpr h),
    fun stat h => if_neg (mt (statusOk_iff_mod_four stat).mp h), fun _ => issue_unpReadAll, fun _ _ _ _ => rfl⟩

end Sys2Proof.Machine
end

section
/-! Reset edges: one from any state gives the reset state, and any more of them give it again
(70_reset_and_hazards.md R108 to R111). -/

namespace Sys2Proof.Machine

/-- A reset edge gives the reset state, whatever the block held and whatever else the edge carries. -/
theorem step_of_resetPresented {s : State} (h : resetPresented s) :
    step s = .next { State.reset with inputs := s.inputs.tail } := by
  rw [step, clockEdge]
  exact if_pos h

theorem step_of_reset_cons {s : State} {e : PortEdge} {rest : List PortEdge} (hin : s.inputs = e :: rest)
    (he : e.rst = true) : step s = .next { State.reset with inputs := rest } := by
  have hreset : resetPresented s := by rwa [resetPresented, presentedEdge_cons hin]
  rw [step_of_resetPresented hreset, hin, List.tail_cons]

/-- Reset edges on a block in the reset state leave it there. -/
theorem runEdges_reset_of_resets {edges : List PortEdge} (rest : List PortEdge) (h : ∀ e ∈ edges, e.rst = true) :
    runEdges edges.length { State.reset with inputs := edges ++ rest } = .next { State.reset with inputs := rest } := by
  induction edges with
  | nil => rfl
  | cons e edges ih =>
    obtain ⟨he, hedges⟩ := List.forall_mem_cons.mp h
    rw [List.length_cons, runEdges_of_step (step_of_reset_cons rfl he)]
    exact ih hedges

/-- Settles O14: the first edge gives the reset state, and the others keep it. -/
theorem oneResetEdgeSuffices : Obligations.OneResetEdgeSuffices := by
  intro s edges rest hne hrst hin
  obtain ⟨e, edges, rfl⟩ := List.exists_cons_of_ne_nil hne
  obtain ⟨he, hedges⟩ := List.forall_mem_cons.mp hrst
  rw [List.length_cons, runEdges_of_step (step_of_reset_cons hin he)]
  exact runEdges_reset_of_resets rest hedges

/-- Settles O52: the reset state meets the invariant, which says nothing of the edges still to come. -/
theorem resetEdgeEstablishesTheInvariant : Obligations.ResetEdgeEstablishesTheInvariant :=
  fun _ h => ⟨_, step_of_resetPresented h, resetMeetsTheInvariant.outside _ _ _ _, rfl⟩

/-- Settles O13: the next state is the reset state, whose elements hold these values. -/
theorem resetEdgeGivesTheResetValues : Obligations.ResetEdgeGivesTheResetValues :=
  fun _ _ _ _ hin => ⟨_, step_of_reset_cons hin rfl, State.reset_crc, State.reset_len, State.reset_val,
    congrArg dstatCode State.reset_dstat, State.reset_err, congrArg ecauseCode State.reset_ecause, State.reset_rsp,
    State.reset_rsp, rfl⟩

end Sys2Proof.Machine
end

section
/-! Where the model stops: at an edge that accepts a word, which is refused before the first reset and after it faults
only as an UNP_DECODE or a STAT_READ (70_reset_and_hazards.md R110; 10_state.md R29; 93_implementation_defined.md A). -/

namespace Sys2Proof.Machine

/-- Every other command completes: no other reads a BUF cell or stops at a value of ECAUSE. -/
theorem exec_fault {i : Instr} {s : State} {f : Fault} (h : exec i s = .fault f) :
    i = .unpDecode ∨ i = .statRead := by
  cases i with
  | unpDecode => exact .inl rfl
  | statRead => exact .inr rfl
  | unpPush b => cases (execUnpPush_eq b s).symm.trans h
  | _ => cases h

theorem acceptWord_beforeReset {w : Word} {s : State} (h : s.hasReset = false) :
    acceptWord w s = .refused .beforeReset := by simp [acceptWord, h]

/-- A reset block that accepts a word runs a command or records an error. -/
theorem acceptWord_afterReset {s : State} (h : s.hasReset = true) (w : Word) :
    (∃ i, decode w = .cmd i ∧ acceptWord w s = exec i s) ∨ ∃ c, acceptWord w s = .next (raiseCmdError c s) := by
  cases hd : decode w with
  | cmd i => exact .inl ⟨i, rfl, acceptWord_cmd h hd⟩
  | illegal c => exact .inr ⟨c, acceptWord_illegal h hd⟩

/-- An accepted word is refused only before the first reset, since no command refuses. -/
theorem acceptWord_refused {w : Word} {s : State} {r : Refusal} (h : acceptWord w s = .refused r) :
    r = .beforeReset ∧ s.hasReset = false := by
  cases hs : s.hasReset with
  | false =>
    rw [acceptWord_beforeReset hs] at h
    exact ⟨(Host.Outcome.refused.inj h).symm, rfl⟩
  | true =>
    obtain ⟨i, -, heq⟩ | ⟨c, heq⟩ := acceptWord_afterReset hs w
    · exact absurd (heq.symm.trans h) (exec_not_refused i s r)
    · cases heq.symm.trans h

/-- An accepted word faults only in a reset block, as one of the two commands that can. -/
theorem acceptWord_fault {w : Word} {s : State} {f : Fault} (h : acceptWord w s = .fault f) :
    s.hasReset = true ∧ (w = encode .unpDecode ∨ w = encode .statRead) := by
  cases hs : s.hasReset with
  | false => cases (acceptWord_beforeReset hs).symm.trans h
  | true =>
    obtain ⟨i, hd, heq⟩ | ⟨c, heq⟩ := acceptWord_afterReset hs w
    · rw [← encode_of_decode hd]
      exact ⟨rfl, (exec_fault (heq.symm.trans h)).imp (congrArg encode) (congrArg encode)⟩
    · cases heq.symm.trans h

/-- An edge completes, being a reset or an idle one, or it accepts a word. -/
theorem step_next_or_acceptWord (s : State) :
    (∃ t, step s = .next t) ∨ ∃ w, presentedEdge s = commandEdge w ∧ step s = acceptWord w (passEdge s) := by
  rw [step]
  obtain ⟨rst, valid, w⟩ := presentedEdge s
  cases rst with
  | true => exact .inl ⟨_, clockEdge_reset valid w _⟩
  | false =>
    cases valid with
    | false => exact .inl ⟨_, clockEdge_idle w _⟩
    | true => exact .inr ⟨w, rfl, clockEdge_accept w _⟩

theorem step_refused {s : State} {r : Refusal} (h : step s = .refused r) :
    r = .beforeReset ∧ s.hasReset = false ∧ (presentedEdge s).accepts = true := by
  obtain ⟨t, ht⟩ | ⟨w, hw, hstep⟩ := step_next_or_acceptWord s
  · cases ht.symm.trans h
  · obtain ⟨hr, hs⟩ := acceptWord_refused (hstep.symm.trans h)
    exact ⟨hr, hs, hw ▸ rfl⟩

theorem step_fault {s : State} {f : Fault} (h : step s = .fault f) :
    s.hasReset = true ∧ (commandPresented s .unpDecode ∨ commandPresented s .statRead) := by
  obtain ⟨t, ht⟩ | ⟨w, hw, hstep⟩ := step_next_or_acceptWord s
  · cases ht.symm.trans h
  · obtain ⟨hs, hword⟩ := acceptWord_fault (hstep.symm.trans h)
    exact ⟨hs, hword.imp (hw.trans <| congrArg commandEdge ·) (hw.trans <| congrArg commandEdge ·)⟩

/-- Settles O54: only an edge that accepts a word can stop, and no word is refused or faults otherwise. -/
theorem onlyAcceptedCommandsCanStop : Obligations.OnlyAcceptedCommandsCanStop :=
  ⟨fun _ _ => step_refused, fun _ _ => step_fault⟩

/-- Settles O16: the edge accepts the word, and no reset edge has come before it. -/
theorem commandBeforeResetIsRefused : Obligations.CommandBeforeResetIsRefused := by
  intro s w rest hs hin
  rw [step_cons hin, clockEdge_accept]
  exact acceptWord_beforeReset hs

end Sys2Proof.Machine
end
